-- ==== Sys2Proof/Word.lean ====
section
/-! DEFINITION. The word type of the LC-3 core and the plainest arithmetic on it (00_scope.md R11). -/

namespace Sys2Proof

/-- A register value or a memory word: 16 bits (R11; XLEN = I = 16, R8). -/
abbrev Word := BitVec 16

/-- The value of one memory cell: 64 bits, W = 64 (R8, R49). -/
abbrev CellValue := BitVec 64

/-- A console character code, CHARW = 16 bits (43_trap.md R219). -/
abbrev Character := BitVec 16

/-- A console text or an input line: a finite, possibly empty sequence of characters (R219). -/
abbrev Text := List Character

/-- A general register's number, R0 to R7 (10_state.md R31): exactly the defined members, so that
UnknownRegister cannot arise (93 U4). -/
abbrev RegId := Fin 8

/-- `uval(v)`: the unsigned reading, 0 .. 65535 (R11). -/
abbrev uval (v : Word) : Int := (v.toNat : Int)

/-- `sval(v)`: the two's-complement reading, -32768 .. 32767 (R11). -/
abbrev sval (v : Word) : Int := v.toInt

/-- `trunc16(n)`: the 16-bit vector `n mod 65536` of any integer (R11). -/
def trunc16 (n : Int) : Word := BitVec.ofInt 16 n

end Sys2Proof
end

