-- ==== Sys2Proof/Config.lean ====
section
/-! DEFINITION. The parameters of the hardware (00_scope.md R8) and its one free value. A value the
document does not give carries the mark of its log entry (notes/assumptions/<n>.md). -/

namespace Sys2Proof.Config

/-- `W`: cell width in bits (R8, R61). -/
abbrev cellWidth : Nat := 64

/-- `I`: instruction width, also the width of a memory word (R8). -/
abbrev instructionWidth : Nat := 16

/-- The construction condition on the instruction width, `2 <= I <= W` (R61), met by I = 16. -/
theorem instructionWidth_valid : 2 ≤ instructionWidth ∧ instructionWidth ≤ cellWidth := by decide

/-- `UNIT`: bits per architectural address unit (R8, R76). UNVERIFIED, the decision D1 of the spec, unsafe: log entry 1. -/
def unit : Nat := 16

/-- `STEP = I/UNIT`: what is added to an architectural address to reach the next word (R8). -/
def step : Nat := instructionWidth / unit

/-- `START`: the value `run()` puts in the program counter (R8, R282). -/
def start : Word := 0x3000

/-- The reference value of `N_CELLS` (R8, D3), used by `State.reset` alone. DESIGN CHOICE, unsafe: log entry 3. -/
def referenceCellCount : Nat := 16384

/-- `FL_P`, the code of POSITIVE in COND (10_state.md R40). UNVERIFIED, the decision D8 of the spec, safe: log
entry 8. -/
def flagP : Word := 1

/-- `FL_Z`, the code of ZERO in COND (R40, D8). -/
def flagZ : Word := 2

/-- `FL_N`, the code of NEGATIVE in COND (R40, D8). -/
def flagN : Word := 4

/-- `TV_GETC`. The six trap codes are UNVERIFIED, the decision D7 of the spec, unsafe: log entry 7. -/
def tvGetc : BitVec 8 := 0x20

/-- `TV_OUT` (D7). -/
def tvOut : BitVec 8 := 0x21

/-- `TV_PUTS` (D7). -/
def tvPuts : BitVec 8 := 0x22

/-- `TV_IN` (D7). -/
def tvIn : BitVec 8 := 0x23

/-- `TV_PUTSP` (D7). -/
def tvPutsp : BitVec 8 := 0x24

/-- `TV_HALT` (D7). -/
def tvHalt : BitVec 8 := 0x25

/-- `IN_PROMPT`: the text IN writes before reading (43_trap.md R214). The document does not give it (D13,
U11): a free value, which nothing can evaluate. Safe as to its value: log entry 13. -/
opaque inPrompt : Text

end Sys2Proof.Config
end

