-- ==== Sys2Proof/Syntax.lean ====
section
/-! DEFINITION. The sixteen opcodes and the 25 instructions, one constructor for each row of
spec/opcode_table.json (30_encoding.md R103, R106). Register fields name R0..R7 (R104); signed
immediates keep their field's width and are sign-extended where they are used (R105). -/

namespace Sys2Proof

/-- The closed enumeration of the opcodes, in the order of the document's table (R106). -/
inductive Opcode where
  | br | add | ld | st | jsr | and | ldr | str | rti | not | ldi | sti | jmp | res | lea | trap
deriving DecidableEq, Repr

/-- An instruction, with the operands its format gives it (R103). Bits no handler looks at (R107) are no
operands. -/
inductive Instr where
  /-- BR (R190): branch by flags. -/
  | br (n z p : Bool) (off : BitVec 9)
  /-- ADD, register form (R140). -/
  | add (dr sr1 sr2 : RegId)
  /-- ADD, immediate form (R141). -/
  | addi (dr sr1 : RegId) (imm : BitVec 5)
  /-- LD (R161): PC-relative load. -/
  | ld (dr : RegId) (off : BitVec 9)
  /-- ST (R165): PC-relative store. -/
  | st (sr : RegId) (off : BitVec 9)
  /-- JSR (R192): PC-relative call. -/
  | jsr (off : BitVec 11)
  /-- JSRR (R193): call through a register. -/
  | jsrr (base : RegId)
  /-- AND, register form (R142). -/
  | and (dr sr1 sr2 : RegId)
  /-- AND, immediate form (R143). -/
  | andi (dr sr1 : RegId) (imm : BitVec 5)
  /-- LDR (R163): base plus offset load. -/
  | ldr (dr base : RegId) (off : BitVec 6)
  /-- STR (R167): base plus offset store. -/
  | str (sr base : RegId) (off : BitVec 6)
  /-- RTI (R194): reserved, no operation. -/
  | rti
  /-- NOT (R144). -/
  | not (dr sr : RegId)
  /-- LDI (R162): indirect load. -/
  | ldi (dr : RegId) (off : BitVec 9)
  /-- STI (R166): indirect store. -/
  | sti (sr : RegId) (off : BitVec 9)
  /-- JMP (R191); RET is `jmp 7`. -/
  | jmp (base : RegId)
  /-- RES (R195): reserved, no operation. -/
  | res
  /-- LEA (R164). -/
  | lea (dr : RegId) (off : BitVec 9)
  /-- TRAP x20 (R211). -/
  | getc
  /-- TRAP x21 (R212). -/
  | out
  /-- TRAP x22 (R213). -/
  | puts
  /-- TRAP x23 (R214). -/
  | in_
  /-- TRAP x24 (R215). -/
  | putsp
  /-- TRAP x25 (R216). -/
  | halt
  /-- TRAP with a code that names no service (R217). -/
  | trap (vect : BitVec 8)
deriving DecidableEq, Repr

/-- The opcode an instruction is encoded under (R106). -/
def Instr.opcode : Instr → Opcode
  | .br _ _ _ _ => .br
  | .add _ _ _ => .add
  | .addi _ _ _ => .add
  | .ld _ _ => .ld
  | .st _ _ => .st
  | .jsr _ => .jsr
  | .jsrr _ => .jsr
  | .and _ _ _ => .and
  | .andi _ _ _ => .and
  | .ldr _ _ _ => .ldr
  | .str _ _ _ => .str
  | .rti => .rti
  | .not _ _ => .not
  | .ldi _ _ => .ldi
  | .sti _ _ => .sti
  | .jmp _ => .jmp
  | .res => .res
  | .lea _ _ => .lea
  | .getc => .trap
  | .out => .trap
  | .puts => .trap
  | .in_ => .trap
  | .putsp => .trap
  | .halt => .trap
  | .trap _ => .trap

end Sys2Proof
end

