-- ==== Sys2Proof/WellFormed.lean ====
section
/-! DEFINITION. Which instruction terms are instructions of the machine. Operand types already hold
exactly the values their fields admit (30_encoding.md R104, R105); the one check left is that `trap` carries a
code that names no service, since the six defined codes are instructions of their own (R106, R109). -/

namespace Sys2Proof

/-- The six defined trap codes (R109). -/
def isServiceCode (v : BitVec 8) : Bool :=
  v == Config.tvGetc || v == Config.tvOut || v == Config.tvPuts || v == Config.tvIn || v == Config.tvPutsp ||
    v == Config.tvHalt

/-- Well-formedness of an instruction term. -/
def Instr.wellFormed : Instr → Bool
  | .br _ _ _ _ => true
  | .add _ _ _ => true
  | .addi _ _ _ => true
  | .ld _ _ => true
  | .st _ _ => true
  | .jsr _ => true
  | .jsrr _ => true
  | .and _ _ _ => true
  | .andi _ _ _ => true
  | .ldr _ _ _ => true
  | .str _ _ _ => true
  | .rti => true
  | .not _ _ => true
  | .ldi _ _ => true
  | .sti _ _ => true
  | .jmp _ => true
  | .res => true
  | .lea _ _ => true
  | .getc => true
  | .out => true
  | .puts => true
  | .in_ => true
  | .putsp => true
  | .halt => true
  | .trap v => !isServiceCode v

end Sys2Proof
end

