-- ==== Sys2Proof/Decode.lean ====
section
/-! DEFINITION. The decoder, a total function of the instruction word (30_encoding.md R100-R110), and the encoder
written from the same formats (R103). Every one of the 65536 words decodes (R110): UnknownOpcode is
unreachable (60_exceptions.md R243). -/

namespace Sys2Proof

/-- The opcode of a 4-bit code (the last case is 1111): row order of the document's table is numeric order (R106;
UNVERIFIED, D5, log entry 5). -/
def Opcode.ofCode (c : BitVec 4) : Opcode :=
  match c with
  | 0x0#4 => .br
  | 0x1#4 => .add
  | 0x2#4 => .ld
  | 0x3#4 => .st
  | 0x4#4 => .jsr
  | 0x5#4 => .and
  | 0x6#4 => .ldr
  | 0x7#4 => .str
  | 0x8#4 => .rti
  | 0x9#4 => .not
  | 0xA#4 => .ldi
  | 0xB#4 => .sti
  | 0xC#4 => .jmp
  | 0xD#4 => .res
  | 0xE#4 => .lea
  | _ => .trap

/-- The 4-bit code of an opcode (R106). -/
def Opcode.code : Opcode → BitVec 4
  | .br => 0x0
  | .add => 0x1
  | .ld => 0x2
  | .st => 0x3
  | .jsr => 0x4
  | .and => 0x5
  | .ldr => 0x6
  | .str => 0x7
  | .rti => 0x8
  | .not => 0x9
  | .ldi => 0xA
  | .sti => 0xB
  | .jmp => 0xC
  | .res => 0xD
  | .lea => 0xE
  | .trap => 0xF

/-- `op = ir[15:12]`, by unsigned extraction (R101, D19). -/
def opcodeField (ir : Word) : BitVec 4 := ir.extractLsb' 12 4

/-- The 3-bit register field whose lowest bit is `lo`, as a register number (R102, R104). -/
def regField (ir : Word) (lo : Nat) : RegId := ⟨(ir.extractLsb' lo 3).toNat, (ir.extractLsb' lo 3).isLt⟩

/-- A one-bit field `ir[k]` (R102). -/
def bitField (ir : Word) (k : Nat) : Bool := ir.getLsbD k

/-- The instruction a TRAP word's code selects (R106, 43_trap.md R210). -/
def decodeTrap (v : BitVec 8) : Instr :=
  if v = Config.tvGetc then .getc
  else if v = Config.tvOut then .out
  else if v = Config.tvPuts then .puts
  else if v = Config.tvIn then .in_
  else if v = Config.tvPutsp then .putsp
  else if v = Config.tvHalt then .halt
  else .trap v

/-- Decode: first on `ir[15:12]`, then on the mode bit for ADD, AND and JSR, then on the trap code (R106); the
slices are those of R103 (positions outside ADD: UNVERIFIED, D6, log entry 6). Bits of no field are not
examined (R107; D18, log entry 17). -/
def decode (ir : Word) : Instr :=
  match Opcode.ofCode (opcodeField ir) with
  | .br => .br (bitField ir 11) (bitField ir 10) (bitField ir 9) (ir.extractLsb' 0 9)
  | .add =>
    if bitField ir 5 then .addi (regField ir 9) (regField ir 6) (ir.extractLsb' 0 5)
    else .add (regField ir 9) (regField ir 6) (regField ir 0)
  | .ld => .ld (regField ir 9) (ir.extractLsb' 0 9)
  | .st => .st (regField ir 9) (ir.extractLsb' 0 9)
  | .jsr => if bitField ir 11 then .jsr (ir.extractLsb' 0 11) else .jsrr (regField ir 6)
  | .and =>
    if bitField ir 5 then .andi (regField ir 9) (regField ir 6) (ir.extractLsb' 0 5)
    else .and (regField ir 9) (regField ir 6) (regField ir 0)
  | .ldr => .ldr (regField ir 9) (regField ir 6) (ir.extractLsb' 0 6)
  | .str => .str (regField ir 9) (regField ir 6) (ir.extractLsb' 0 6)
  | .rti => .rti
  | .not => .not (regField ir 9) (regField ir 6)
  | .ldi => .ldi (regField ir 9) (ir.extractLsb' 0 9)
  | .sti => .sti (regField ir 9) (ir.extractLsb' 0 9)
  | .jmp => .jmp (regField ir 6)
  | .res => .res
  | .lea => .lea (regField ir 9) (ir.extractLsb' 0 9)
  | .trap => decodeTrap (ir.extractLsb' 0 8)

/-- Why a byte string gives no instruction: the one refusal there is, since every word decodes (R110). -/
inductive DecodeRefusal where
  /-- Fewer than two bytes are left: there is no instruction word (R100). -/
  | shortWord
deriving DecidableEq, Repr

/-- Decoding from bytes, a word's high byte first (20_memory.md R80, 30_encoding.md R115): the instruction
and the bytes that follow it. -/
def decodeBytes : List (BitVec 8) → Except DecodeRefusal (Instr × List (BitVec 8))
  | hi :: lo :: rest => .ok (decode (hi ++ lo), rest)
  | _ => .error .shortWord

/-- The decoder on an instruction numbered as spec/opcode_table.json numbers its bits (bit 0 the least significant bit
of the one 16-bit word): the word's bytes are laid out high byte first and decoded. -/
def decodeTableWord (nbits w : Nat) : Option Instr :=
  if nbits = 0 ∨ 16 < nbits then none
  else
    match decodeBytes [BitVec.ofNat 8 (w % 2 ^ nbits / 256), BitVec.ofNat 8 (w % 2 ^ nbits)] with
    | .ok (i, []) => some i
    | .ok (_, _ :: _) => none
    | .error _ => none

/-- A register number as its 3-bit field (R104). -/
def regBits (r : RegId) : BitVec 3 := BitVec.ofNat 3 r.val

/-- The twelve bits below the opcode, format by format (R103). Bits of no field take their customary values (R107):
zeros, but ones in NOT (log entry 31). -/
def operandBits : Instr → BitVec 12
  | .br n z p off => BitVec.ofBool n ++ BitVec.ofBool z ++ BitVec.ofBool p ++ off
  | .add dr sr1 sr2 => regBits dr ++ regBits sr1 ++ 0b000#3 ++ regBits sr2
  | .addi dr sr1 imm => regBits dr ++ regBits sr1 ++ 0b1#1 ++ imm
  | .ld dr off => regBits dr ++ off
  | .st sr off => regBits sr ++ off
  | .jsr off => 0b1#1 ++ off
  | .jsrr base => 0b000#3 ++ regBits base ++ 0b000000#6
  | .and dr sr1 sr2 => regBits dr ++ regBits sr1 ++ 0b000#3 ++ regBits sr2
  | .andi dr sr1 imm => regBits dr ++ regBits sr1 ++ 0b1#1 ++ imm
  | .ldr dr base off => regBits dr ++ regBits base ++ off
  | .str sr base off => regBits sr ++ regBits base ++ off
  | .rti => 0#12
  | .not dr sr => regBits dr ++ regBits sr ++ 0b111111#6
  | .ldi dr off => regBits dr ++ off
  | .sti sr off => regBits sr ++ off
  | .jmp base => 0b000#3 ++ regBits base ++ 0b000000#6
  | .res => 0#12
  | .lea dr off => regBits dr ++ off
  | .getc => 0b0000#4 ++ Config.tvGetc
  | .out => 0b0000#4 ++ Config.tvOut
  | .puts => 0b0000#4 ++ Config.tvPuts
  | .in_ => 0b0000#4 ++ Config.tvIn
  | .putsp => 0b0000#4 ++ Config.tvPutsp
  | .halt => 0b0000#4 ++ Config.tvHalt
  | .trap v => 0b0000#4 ++ v

/-- The encoder: the opcode in bits 15..12, the operands below it (R101, R103). -/
def encode (i : Instr) : Word := i.opcode.code ++ operandBits i

/-- The bits of an instruction's word that belong to no field and are not examined, as a mask (R107). -/
def Instr.unexamined : Instr → Word
  | .br _ _ _ _ => 0x0000
  | .add _ _ _ => 0x0018
  | .addi _ _ _ => 0x0000
  | .ld _ _ => 0x0000
  | .st _ _ => 0x0000
  | .jsr _ => 0x0000
  | .jsrr _ => 0x063F
  | .and _ _ _ => 0x0018
  | .andi _ _ _ => 0x0000
  | .ldr _ _ _ => 0x0000
  | .str _ _ _ => 0x0000
  | .rti => 0x0FFF
  | .not _ _ => 0x003F
  | .ldi _ _ => 0x0000
  | .sti _ _ => 0x0000
  | .jmp _ => 0x0E3F
  | .res => 0x0FFF
  | .lea _ _ => 0x0000
  | .getc => 0x0F00
  | .out => 0x0F00
  | .puts => 0x0F00
  | .in_ => 0x0F00
  | .putsp => 0x0F00
  | .halt => 0x0F00
  | .trap _ => 0x0F00

end Sys2Proof
end

