-- ==== Sys2Proof/Machine/State.lean ====
section
/-! DEFINITION. The machine's state, as plain data (10_state.md R30), the reasons a step can stop, and reset. -/

namespace Sys2Proof.Machine

/-- The failure kinds of the hardware (60_exceptions.md R240-R246) with the `info` the spec attaches, and the
spec's own kind for IN with an empty line (93 U5). A failure is latched in `State.fault`: the raising step answers
the faulted state, which is terminal (10_state.md R46). -/
inductive Failure where
  /-- R241: only construction of the memory engine raises it. -/
  | invalidConfiguration
  /-- R242: raised by the range check of an access, with the offending bit address. -/
  | addressOutOfRange (bitAddress : Int)
  /-- R243: unreachable, every opcode has a handler. -/
  | unknownOpcode (op : BitVec 4)
  /-- R244: raised by TRAP with a code that names no service. -/
  | unknownTrapCode (code : BitVec 8)
  /-- R245: unreachable, a register field names a register. -/
  | unknownRegister
  /-- R246: only writeProgram raises it. -/
  | malformedProgram
  /-- 93 U5: raised by IN when the line read is empty, after the prompt. -/
  | unspecifiedInEmptyLine
deriving DecidableEq, Repr

/-- The reasons `step` answers no next state. None of them is an instruction's failure: those are latched by a
next state. -/
inductive Fault where
  /-- Raised by `step` alone, in a state whose `fault` is set: "the machine then makes no further step" (R46).
  Safe: the document hands the failure to the host there. Log entry 20. -/
  | latched (k : Failure)
  /-- Raised by GETC and IN when no line is available: the step "is enabled only when cin has a next line" (43_trap.md
  R220). A wait, not a failure of the machine. Safe: nothing is claimed of the wait. Log entry 25. -/
  | stuckAwaitingLine
  /-- Raised by `step` alone when the run loop is not in progress: before `run()`, or after HALT, the normal end
  (70_reset_and_hazards.md R282, R284). Safe: the hardware takes no step there either. Log entry 27. -/
  | notRunning
deriving DecidableEq, Repr

/-- The reasons the model gives no meaning. -/
inductive Refusal where
  /-- Raised by an arm of `exec` for an instruction without a meaning; no arm is left that does. Safe. -/
  | notModelled (mnemonic : String)
  /-- Raised by the host operations `run` and `writeProgram` on a machine whose `fault` is set: not defined by the
  document (93 U7). Safe. Log entry 28. -/
  | hostCallAfterFailure
  /-- Raised by the host operations `run` and `writeProgram` while a run is in progress: not defined by the
  document (93 U7). Safe. Log entry 28. -/
  | hostCallWhileRunning
deriving DecidableEq, Repr

/-- The memory engine (20_memory.md R61, R62): the number of cells N, fixed at construction, and the contents of the
cells in the canonical form of `Memory.wf` (Machine/Memory.lean): (cell index, value) pairs, an unlisted cell
reading as `unlistedCell`. Cells, not bytes, are listed: log entry 29. -/
structure Memory where
  cellCount : Nat
  cells : List (Nat × CellValue)
deriving DecidableEq, Repr

/-- What a cell that no write has changed holds. DESIGN CHOICE (the decision D15 of the spec), unsafe: log entry 15. -/
def unlistedCell : CellValue := 0

/-- The state of the machine (R30). -/
structure State where
  /-- R0..R7 (R31). -/
  regs : Vector Word 8
  /-- The program counter (R35). -/
  pc : Word
  /-- COND, the condition-flag register (R39). -/
  cond : Word
  /-- The run flag (R45). -/
  running : Bool
  /-- The failure latch (R46). -/
  fault : Option Failure
  /-- The memory engine (R49). -/
  mem : Memory
  /-- Console output: everything written so far, in order (R50). -/
  cout : Text
  /-- Console input: the lines supplied and not yet consumed, in order (R50). -/
  cin : List Text
deriving DecidableEq, Repr

/-- The machine right after construction with `n` cells (R53, R280). -/
def State.constructed (n : Nat) : State where
  regs := Vector.replicate 8 0
  pc := 0
  cond := 0
  running := false
  fault := none
  mem := { cellCount := n, cells := [] }
  cout := []
  cin := []

/-- Reset: construction with the reference number of cells (R53, R280, R281). DESIGN CHOICE, unsafe, for the
number of cells (log entry 3), the cells' contents (log entry 15) and the empty `cin` (log entry 26); the other
values are the spec's. -/
def State.reset : State := State.constructed Config.referenceCellCount

end Sys2Proof.Machine
end

