-- ==== Sys2Proof/Machine/Memory.lean ====
section
/-! DEFINITION. The cells of the memory engine as data: reading one, writing one, the canonical form, and the bit
arena they form (20_memory.md R62). -/

namespace Sys2Proof.Machine

/-- The value listed for a cell index, or what an unlisted cell holds. -/
def lookupCell (k : Nat) : List (Nat × CellValue) → CellValue
  | [] => unlistedCell
  | e :: rest => if e.1 = k then e.2 else lookupCell k rest

/-- `cells[k]` (R49). -/
def Memory.cellAt (m : Memory) (k : Nat) : CellValue := lookupCell k m.cells

/-- Put an entry before the first entry with a greater cell index. -/
def placeCell (k : Nat) (v : CellValue) : List (Nat × CellValue) → List (Nat × CellValue)
  | [] => [(k, v)]
  | e :: rest => if k < e.1 then (k, v) :: e :: rest else e :: placeCell k v rest

/-- The list with no entry for a cell index. -/
def dropCell (k : Nat) (l : List (Nat × CellValue)) : List (Nat × CellValue) := l.filter (fun e => e.1 != k)

/-- `cells[k] <- v`, keeping the canonical form: the value of an unlisted cell leaves no entry. -/
def Memory.setCell (m : Memory) (k : Nat) (v : CellValue) : Memory :=
  { m with cells := if v = unlistedCell then dropCell k m.cells else placeCell k v (dropCell k m.cells) }

/-- The canonical form: cell indices strictly rising and below the number of cells, and no entry equal to what an
unlisted cell holds. -/
abbrev Memory.wf (m : Memory) : Prop :=
  m.cells.Pairwise (fun a b => a.1 < b.1) ∧ ∀ e ∈ m.cells, e.1 < m.cellCount ∧ e.2 ≠ unlistedCell

/-- Global bit `g` of the arena: cell bit index `g mod 64`, counted from the most significant bit, of cell
`g div 64` (R62). -/
def Memory.bit (m : Memory) (g : Nat) : Bool := (m.cellAt (g / 64)).getLsbD (63 - g % 64)

end Sys2Proof.Machine
end

