-- ==== Sys2Proof/Machine/Engine.lean ====
section
/-! DEFINITION. The bit-packed memory engine (20_memory.md R61-R73), for every instruction width `I` its construction
accepts, `2 <= I <= W = 64`. A value read or written is a vector of exactly `I` bits, so that an over-wide value
(93 U2) cannot be presented. Cell bit index 0 is the most significant bit of a cell (00_scope.md R10). -/

namespace Sys2Proof.Machine

/-- `generateMask(width, from, to)` (R63): cell-style bit indices `[lo, hi)` are 0, all others 1. Its precondition is an
argument, so that a call outside it (93 U1) cannot be written. -/
def generateMask (width lo hi : Nat) (_ : lo ≤ hi ∧ hi ≤ width) : BitVec width :=
  ~~~((BitVec.allOnes width >>> lo) &&& (BitVec.allOnes width <<< (width - hi)))

/-- `locate(bitAddress, cellWidth)` (R64). -/
abbrev locate (bitAddress width : Nat) : Nat × Nat := (bitAddress / width, bitAddress % width)

/-- `MAX_ADDR = N*W - I` (R61). -/
def Memory.maxAddress (I : Nat) (m : Memory) : Int := (m.cellCount : Int) * 64 - (I : Int)

/-- The range check of every access (R65). -/
abbrev Memory.accepts (I : Nat) (m : Memory) (b : Int) : Prop := 0 ≤ b ∧ b ≤ m.maxAddress I

/-- Construction `new(cellCount, instructionWidth)` (R61, R241): every cell as an unlisted cell. -/
def engineNew (cellCount instructionWidth : Int) : Except Failure Memory :=
  if cellCount ≤ 0 ∨ instructionWidth < 2 ∨ instructionWidth > 64 then .error .invalidConfiguration
  else .ok { cellCount := cellCount.toNat, cells := [] }

/-- The bits `EngineRead` returns from an accepted address. Not split when the value ends in its first cell
(R66, D25): R71; split: R72. -/
def readBits (I : Nat) (hI : 2 ≤ I ∧ I ≤ 64) (m : Memory) (b : Nat) : BitVec I :=
  let h := (locate b 64).1
  let off := (locate b 64).2
  if hs : off + I ≤ 64 then
    ((m.cellAt h &&& ~~~generateMask 64 off (off + I) ⟨Nat.le_add_right _ _, hs⟩) >>> (64 - I - off)).setWidth I
  else
    let r := off + I - 64
    have hoff : off < 64 := Nat.mod_lt _ (by decide)
    ((m.cellAt h &&& ~~~generateMask 64 off 64 ⟨Nat.le_of_lt hoff, Nat.le_refl _⟩).setWidth I <<< r)
      + ((m.cellAt (h + 1) &&& ~~~generateMask 64 0 r ⟨Nat.zero_le _, by omega⟩) >>> (64 - r)).setWidth I

/-- `EngineRead(b)` (R65, R71, R72). -/
def engineRead (I : Nat) (hI : 2 ≤ I ∧ I ≤ 64) (m : Memory) (b : Int) : Except Failure (BitVec I) :=
  if m.accepts I b then .ok (readBits I hI m b.toNat) else .error (.addressOutOfRange b)

/-- The memory after `EngineWrite` to an accepted address: one cleared and filled range (R67), or two, the first cell
first (R68). -/
def writeBits (I : Nat) (hI : 2 ≤ I ∧ I ≤ 64) (m : Memory) (b : Nat) (v : BitVec I) : Memory :=
  let h := (locate b 64).1
  let off := (locate b 64).2
  if hs : off + I ≤ 64 then
    m.setCell h ((m.cellAt h &&& generateMask 64 off (off + I) ⟨Nat.le_add_right _ _, hs⟩)
      + (v.setWidth 64 <<< (64 - I - off)))
  else
    let r := off + I - 64
    have hoff : off < 64 := Nat.mod_lt _ (by decide)
    let m1 := m.setCell h ((m.cellAt h &&& generateMask 64 off 64 ⟨Nat.le_of_lt hoff, Nat.le_refl _⟩)
      + (v >>> r).setWidth 64)
    m1.setCell (h + 1) ((m1.cellAt (h + 1) &&& generateMask 64 0 r ⟨Nat.zero_le _, by omega⟩)
      + ((v.setWidth r).setWidth 64 <<< (64 - r)))

/-- `EngineWrite(b, v)` (R65, R67, R68): the range check precedes any change. -/
def engineWrite (I : Nat) (hI : 2 ≤ I ∧ I ≤ 64) (m : Memory) (b : Int) (v : BitVec I) : Except Failure Memory :=
  if m.accepts I b then .ok (writeBits I hI m b.toNat v) else .error (.addressOutOfRange b)

end Sys2Proof.Machine
end

