-- ==== Sys2Proof/Machine/Ops.lean ====
section
/-! DEFINITION. The named operations over registers, memory, console and the failure latch, which every meaning goes
through (00_scope.md R13-R16). -/

namespace Sys2Proof.Machine

/-- The answer of a step. -/
abbrev StepOutcome := Host.Outcome State Fault Refusal

/-- `x[i]` (R13). No register is hardwired (10_state.md R32). -/
def State.reg (s : State) (i : RegId) : Word := s.regs[i]

/-- `x[i] <- v`, an unconditional overwrite (R13, R31). -/
def State.setReg (s : State) (i : RegId) (v : Word) : State := { s with regs := s.regs.set i v }

/-- `pc <- target`, the low 16 bits of the target (R13, 10_state.md R37; D16, log entry 16). -/
def State.setPc (s : State) (target : Int) : State := { s with pc := trunc16 target }

/-- The common effect of every step, `pc <- trunc16(uval(pc) + STEP)` (70_reset_and_hazards.md R283). -/
def State.advancePc (s : State) : State := s.setPc (uval s.pc + Config.step)

/-- The memory engine replaced by its state after a write. -/
def State.setMem (s : State) (m : Memory) : State := { s with mem := m }

/-- The input left after a line is consumed (43_trap.md R219). -/
def State.setCin (s : State) (lines : List Text) : State := { s with cin := lines }

/-- `running <- 0` (10_state.md R45; only HALT does it, 43_trap.md R216). -/
def State.stopRun (s : State) : State := { s with running := false }

/-- `raise K(info)` (R15, 60_exceptions.md R240, R250): TAKING A FAILURE. Nothing is saved, no mode changes, control goes
nowhere: the kind is latched, `running` is left as it is (10_state.md R46; D21, log entry 20), effects already made
remain, and the faulted state is terminal (`step` stops on it). There is no return from it (R252). -/
def State.raise (s : State) (k : Failure) : State := { s with fault := some k }

/-- `BitAddr(a) = a * UNIT` (20_memory.md R76; D1, log entry 1). -/
def bitAddr (a : Int) : Int := a * (Config.unit : Int)

/-- `MemRead(a, 16)` (R14): the address is an exact integer, never wrapped (20_memory.md R78; D4, log entry 4). -/
def State.memRead (s : State) (a : Int) : Except Failure Word :=
  engineRead 16 Config.instructionWidth_valid s.mem (bitAddr a)

/-- `MemWrite(a, 16, v)` (R14): the memory it leaves, or its failure. The 16-bit pattern is transferred unchanged
(20_memory.md R90; D20, log entry 19). -/
def State.memWrite (s : State) (a : Int) (v : Word) : Except Failure Memory :=
  engineWrite 16 Config.instructionWidth_valid s.mem (bitAddr a) v

/-- A store as a whole: memory changed, or the failure of the access raised and memory unchanged (R65). -/
def State.storeWord (s : State) (a : Int) (v : Word) : State :=
  match s.memWrite a v with
  | .ok m => s.setMem m
  | .error k => s.raise k

/-- A read through a pointer word: the pointer first, then the word it names, read as unsigned (41_data_movement.md
R160, R162; 20_memory.md R77, D2, log entry 2). -/
def State.memReadIndirect (s : State) (a : Int) : Except Failure Word :=
  match s.memRead a with
  | .ok p => s.memRead (uval p)
  | .error k => .error k

/-- `ConsoleWrite(t)` (R16, 43_trap.md R219). -/
def State.consoleWrite (s : State) (t : Text) : State := { s with cout := s.cout ++ t }

/-- `ConsoleReadLine()` (R16, R219): the next line and the state without it, or nothing when no line is available. -/
def State.consoleReadLine (s : State) : Option (Text × State) :=
  match s.cin with
  | [] => none
  | line :: rest => some (line, s.setCin rest)

/-- The words from address `a` up to, not including, the first zero word, in ascending order (43_trap.md R213); the
failure of the first read outside memory otherwise. `fuel` bounds the reads. -/
def State.scanWords (s : State) : Nat → Int → Except Failure (List Word)
  | 0, a => .error (.addressOutOfRange (bitAddr a))
  | fuel + 1, a =>
    match s.memRead a with
    | .error k => .error k
    | .ok w =>
      if w = 0 then .ok []
      else
        match s.scanWords fuel (a + Config.step) with
        | .error k => .error k
        | .ok ws => .ok (w :: ws)

/-- The string of words at address `a`: a scan with one read more than memory has words, so that the bound is never
what ends it (R291; log entry 34). -/
def State.stringAt (s : State) (a : Int) : Except Failure (List Word) := s.scanWords (s.mem.cellCount * 4 + 1) a

/-- `a` names a memory word: the range check accepts its bit address (20_memory.md R79). -/
abbrev State.validAddr (s : State) (a : Int) : Prop := s.mem.accepts 16 (bitAddr a)

/-- The fetch of a step, `ir <- MemRead(uval(pc), 16)` (R283, 30_encoding.md R114). -/
def State.fetch (s : State) : Except Failure Word := s.memRead (uval s.pc)

/-- What `run()` does before its first step (70_reset_and_hazards.md R282): nothing else is touched. -/
def State.startRun (s : State) : State := { s with pc := Config.start, running := true }

/-- A machine about to step: as it is if a run is in progress and no failure is latched, otherwise put where `run()`
would put it, with no failure latched. Only `withFetchWord` uses it (log entry 27). -/
def State.readyToStep (s : State) : State :=
  if s.running ∧ s.fault = none then s else { s.startRun with fault := none }

/-- The word `w` stored where the next fetch reads. -/
def State.placeAtPc (s : State) (w : Word) : State := s.storeWord (uval s.pc) w

end Sys2Proof.Machine
end

