-- ==== Sys2Proof/Machine/Operands.lean ====
section
/-! DEFINITION. Operand forms: sign and zero extension (00_scope.md R12) and the effective addresses
(41_data_movement.md R160). -/

namespace Sys2Proof.Machine

/-- `sext_N(f)` (R12): bit N-1 of the field filled into all higher bits. -/
def sext (f : BitVec n) : Word := f.signExtend 16

/-- `zext_N(f)` (R12). -/
def zext (f : BitVec n) : Word := f.setWidth 16

/-- PC-relative effective address, an exact integer: `uval(pc) + sval(sext_9(PCoffset9))`, `pc` already incremented
(R160). LD, LDI, ST, STI access it; LEA and BR truncate it. -/
def State.pcRelative (s : State) (off : BitVec 9) : Int := uval s.pc + sval (sext off)

/-- The JSR target before truncation: `uval(pc) + sval(sext_11(PCoffset11))` (42_control.md R192). -/
def State.pcRelative11 (s : State) (off : BitVec 11) : Int := uval s.pc + sval (sext off)

/-- Base-plus-offset effective address, an exact integer: `uval(x[BaseR]) + sval(sext_6(offset6))` (R160). -/
def State.baseOffset (s : State) (base : RegId) (off : BitVec 6) : Int := uval (s.reg base) + sval (sext off)

/-- The two characters packed in a word, high byte first, each zero-extended (43_trap.md R215). -/
def unpackChars (w : Word) : Text := [zext (w.extractLsb' 8 8), zext (w.extractLsb' 0 8)]

end Sys2Proof.Machine
end

