-- ==== Sys2Proof/Machine/Flags.lean ====
section
/-! DEFINITION. The condition flags: the one policy that writes COND (10_state.md R41) and the one test that reads it
(42_control.md R190). -/

namespace Sys2Proof.Machine

/-- The classification of a value as a flag code (R41). -/
def flagOf (v : Word) : Word :=
  if v = 0 then Config.flagZ else if v.getLsbD 15 = false then Config.flagP else Config.flagN

/-- `SetCC(i)`: classify what register `i` holds now (R41). -/
def State.setCC (s : State) (i : RegId) : State := { s with cond := flagOf (s.reg i) }

/-- The end of every instruction that updates flags: `x[DR] <- v; SetCC(DR)` (R42). -/
def State.writeResult (s : State) (dr : RegId) (v : Word) : State := (s.setReg dr v).setCC dr

/-- The end of a load: the word read goes to DR with the flags, or the failure of the read is raised with DR and COND
unchanged (41_data_movement.md R161-R163). -/
def State.loadResult (s : State) (dr : RegId) (r : Except Failure Word) : State :=
  match r with
  | .ok v => s.writeResult dr v
  | .error k => s.raise k

/-- The BR test (R190): `nzp = 0`, or `(nzp AND cond[2:0]) != 0`. -/
def branchTaken (n z p : Bool) (cond : Word) : Bool :=
  let nzp := BitVec.ofBool n ++ BitVec.ofBool z ++ BitVec.ofBool p
  nzp == 0 || (nzp &&& cond.extractLsb' 0 3) != 0

end Sys2Proof.Machine
end

