-- ==== Sys2Proof/Machine/Control.lean ====
section
/-! DEFINITION. The control instructions BR, JMP, JSR, JSRR, RTI, RES (42_control.md R190-R197). None accesses memory,
none can fail; a target outside memory shows at the next fetch (R197). -/

namespace Sys2Proof.Machine

/-- BR (R190): not taken, it falls through. -/
def execBr (n z p : Bool) (off : BitVec 9) (s : State) : StepOutcome :=
  .next (if branchTaken n z p s.cond then s.setPc (s.pcRelative off) else s)

/-- JMP, and RET as JMP R7 (R191). -/
def execJmp (base : RegId) (s : State) : StepOutcome :=
  .next (s.setPc (uval (s.reg base)))

/-- JSR (R192): R7 receives the incremented pc. -/
def execJsr (off : BitVec 11) (s : State) : StepOutcome :=
  .next ((s.setReg 7 s.pc).setPc (s.pcRelative11 off))

/-- JSRR (R193): R7 is written first and the target is read from the register file after that write, so JSRR R7 does
not jump (D10, log entry 10). -/
def execJsrr (base : RegId) (s : State) : StepOutcome :=
  let s1 := s.setReg 7 s.pc
  .next (s1.setPc (uval (s1.reg base)))

/-- RTI (R194): a no-operation. -/
def execRti (s : State) : StepOutcome := .next s

/-- RES (R195): a no-operation. -/
def execRes (s : State) : StepOutcome := .next s

end Sys2Proof.Machine
end

