-- ==== Sys2Proof/Machine/Movement.lean ====
section
/-! DEFINITION. The data-movement instructions LD, LDI, LDR, LEA, ST, STI, STR (41_data_movement.md R160-R168). An
access outside memory raises AddressOutOfRange with nothing changed but the program counter already
incremented (60_exceptions.md R247). -/

namespace Sys2Proof.Machine

/-- LD (R161). -/
def execLd (dr : RegId) (off : BitVec 9) (s : State) : StepOutcome :=
  .next (s.loadResult dr (s.memRead (s.pcRelative off)))

/-- LDI (R162): the pointer read precedes the data read. -/
def execLdi (dr : RegId) (off : BitVec 9) (s : State) : StepOutcome :=
  .next (s.loadResult dr (s.memReadIndirect (s.pcRelative off)))

/-- LDR (R163): the base is read before DR is written. -/
def execLdr (dr base : RegId) (off : BitVec 6) (s : State) : StepOutcome :=
  .next (s.loadResult dr (s.memRead (s.baseOffset base off)))

/-- LEA (R164): no memory access, the address wraps, the flags are set. -/
def execLea (dr : RegId) (off : BitVec 9) (s : State) : StepOutcome :=
  .next (s.writeResult dr (trunc16 (s.pcRelative off)))

/-- ST (R165). -/
def execSt (sr : RegId) (off : BitVec 9) (s : State) : StepOutcome :=
  .next (s.storeWord (s.pcRelative off) (s.reg sr))

/-- STI (R166): the pointer read precedes the write. -/
def execSti (sr : RegId) (off : BitVec 9) (s : State) : StepOutcome :=
  match s.memRead (s.pcRelative off) with
  | .ok p => .next (s.storeWord (uval p) (s.reg sr))
  | .error k => .next (s.raise k)

/-- STR (R167). -/
def execStr (sr base : RegId) (off : BitVec 6) (s : State) : StepOutcome :=
  .next (s.storeWord (s.baseOffset base off) (s.reg sr))

end Sys2Proof.Machine
end

