-- ==== Sys2Proof/Machine/Operate.lean ====
section
/-! DEFINITION. The operate instructions ADD, AND, NOT (40_operate.md R140-R145). They access no memory and cannot
fail. -/

namespace Sys2Proof.Machine

/-- ADD, register form (R140). -/
def execAdd (dr sr1 sr2 : RegId) (s : State) : StepOutcome :=
  .next (s.writeResult dr (trunc16 (uval (s.reg sr1) + uval (s.reg sr2))))

/-- ADD, immediate form (R141). -/
def execAddi (dr sr1 : RegId) (imm : BitVec 5) (s : State) : StepOutcome :=
  .next (s.writeResult dr (trunc16 (uval (s.reg sr1) + sval (sext imm))))

/-- AND, register form (R142). -/
def execAnd (dr sr1 sr2 : RegId) (s : State) : StepOutcome :=
  .next (s.writeResult dr (s.reg sr1 &&& s.reg sr2))

/-- AND, immediate form (R143). -/
def execAndi (dr sr1 : RegId) (imm : BitVec 5) (s : State) : StepOutcome :=
  .next (s.writeResult dr (s.reg sr1 &&& sext imm))

/-- NOT (R144). -/
def execNot (dr sr : RegId) (s : State) : StepOutcome :=
  .next (s.writeResult dr (~~~(s.reg sr)))

end Sys2Proof.Machine
end

