-- ==== Sys2Proof/Machine/Trap.lean ====
section
/-! DEFINITION. TRAP and the six trap services (43_trap.md R210-R221). No service writes R7, COND or memory (R218; D9,
D22, log entry 9). -/

namespace Sys2Proof.Machine

/-- GETC (R211): one line is consumed, its first character (0 for an empty line) goes to R0; the step is enabled only
when a line is available (R220). D11, log entry 11. -/
def execGetc (s : State) : StepOutcome :=
  match s.consoleReadLine with
  | none => .fault .stuckAwaitingLine
  | some ([], s1) => .next (s1.setReg 0 0)
  | some (c :: _, s1) => .next (s1.setReg 0 c)

/-- OUT (R212): the low byte of R0 as one character. -/
def execOut (s : State) : StepOutcome :=
  .next (s.consoleWrite [zext ((s.reg 0).extractLsb' 0 8)])

/-- PUTS (R213): the whole string is read before anything is written. -/
def execPuts (s : State) : StepOutcome :=
  match s.stringAt (uval (s.reg 0)) with
  | .ok ws => .next (s.consoleWrite ws)
  | .error k => .next (s.raise k)

/-- IN (R214): prompt, one line, its first character to R0; an empty line raises the spec's own failure after the prompt
(93 U5, log entry 24). The step is enabled only when a line is available (R220). -/
def execIn (s : State) : StepOutcome :=
  match (s.consoleWrite Config.inPrompt).consoleReadLine with
  | none => .fault .stuckAwaitingLine
  | some ([], s1) => .next (s1.raise .unspecifiedInEmptyLine)
  | some (c :: _, s1) => .next (s1.setReg 0 c)

/-- PUTSP (R215): as PUTS, two characters a word, zero bytes included (D14, log entry 14). -/
def execPutsp (s : State) : StepOutcome :=
  match s.stringAt (uval (s.reg 0)) with
  | .ok ws => .next (s.consoleWrite (ws.flatMap unpackChars))
  | .error k => .next (s.raise k)

/-- HALT (R216): the run flag is cleared, nothing else changes. -/
def execHalt (s : State) : StepOutcome := .next s.stopRun

/-- TRAP with a code that names no service (R217): UnknownTrapCode is raised. -/
def execTrap (vect : BitVec 8) (s : State) : StepOutcome := .next (s.raise (.unknownTrapCode vect))

end Sys2Proof.Machine
end

