-- ==== Sys2Proof/Machine/Step.lean ====
section
/-! DEFINITION. One step (70_reset_and_hazards.md R283), and the placing of an instruction where the next step
fetches. -/

namespace Sys2Proof.Machine

/-- One step: no further step after a failure (10_state.md R46), none when the run loop is not in progress (R282, R284);
otherwise fetch, increment, decode, handler. A failed fetch leaves the program counter (60_exceptions.md R247). -/
def step (s : State) : Host.Outcome State Fault Refusal :=
  match s.fault with
  | some k => .fault (.latched k)
  | none =>
    if s.running then
      match s.fetch with
      | .ok ir => exec (decode ir) s.advancePc
      | .error k => .next (s.raise k)
    else .fault .notRunning

/-- `s` with the instruction word `w` (numbered as spec/opcode_table.json numbers its bits) stored where the next step
fetches; a machine that is not in a run is first put where `run()` puts it (log entry 27). -/
def State.withFetchWord (s : State) (nbits w : Nat) : State :=
  s.readyToStep.placeAtPc (BitVec.ofNat 16 (w % 2 ^ nbits))

end Sys2Proof.Machine
end

