-- ==== Sys2Proof/Machine/HostOps.lean ====
section
/-! DEFINITION. What the outside world can do to the machine (00_scope.md R6, 70_reset_and_hazards.md R280-R287, R295):
construct it, load a program, start a run, supply a line of console input. Calls the document leaves undefined are
refused by name (93 U7; log entry 28). -/

namespace Sys2Proof.Machine

/-- Construction of the machine with `cellCount` cells and I = 16 (R280, 20_memory.md R61). -/
def construct (cellCount : Int) : Except Failure State :=
  match engineNew cellCount Config.instructionWidth with
  | .ok m => .ok { State.constructed m.cellCount with mem := m }
  | .error k => .error k

/-- The value of one binary digit. -/
def digitValue (c : Char) : Option Nat := if c = '0' then some 0 else if c = '1' then some 1 else none

/-- The unsigned binary integer a chunk of digits spells, most significant digit first, on top of `acc`; nothing if a
character is not a digit. -/
def digitsValue : Nat → List Char → Option Nat
  | acc, [] => some acc
  | acc, c :: rest =>
    match digitValue c with
    | some d => digitsValue (2 * acc + d) rest
    | none => none

/-- One chunk as a word: exactly 16 binary digits (R285). -/
def chunkWord (chunk : List Char) : Option Word :=
  if chunk.length = 16 then (digitsValue 0 chunk).map (BitVec.ofNat 16) else none

/-- The loop of `writeProgram` over the chunks, in order: each chunk is checked when it is reached, and chunks already
written stay (R285; D23, log entry 21). `fuel` bounds the chunks. -/
def State.writeChunks : Nat → State → Int → List Char → State
  | 0, s, _, _ => s
  | fuel + 1, s, a, bits =>
    if bits = [] then s
    else
      match chunkWord (bits.take 16) with
      | none => s.raise .malformedProgram
      | some v =>
        match s.memWrite a v with
        | .error k => s.raise k
        | .ok m => State.writeChunks fuel (s.setMem m) (a + Config.step) (bits.drop 16)

/-- `writeProgram(originAddress, bits)` (R285): memory only is written; a failure is latched. Refused after a failure or
during a run (93 U7). -/
def State.writeProgram (s : State) (origin : Int) (bits : List Char) : StepOutcome :=
  if s.fault ≠ none then .refused .hostCallAfterFailure
  else if s.running then .refused .hostCallWhileRunning
  else .next (State.writeChunks bits.length s origin bits)

/-- The call of `run()` (R282): pc = START, running = 1, everything else kept (R287); its loop is then `step` while
`running`. Refused after a failure or during a run (93 U7). -/
def State.run (s : State) : StepOutcome :=
  if s.fault ≠ none then .refused .hostCallAfterFailure
  else if s.running then .refused .hostCallWhileRunning
  else .next s.startRun

/-- The environment supplies one more line of console input (R219, R295; log entry 26). -/
def State.supplyLine (s : State) (line : Text) : State := { s with cin := s.cin ++ [line] }

end Sys2Proof.Machine
end

