-- ==== Sys2Proof/Safety.lean ====
section
/-! DEFINITION. What claims about states and steps are stated in: the invariant of the machine, the ends of a run
(70_reset_and_hazards.md R284), and the effects instructions have, said by what a state shows. -/

namespace Sys2Proof.Machine

/-! ### Invariant and run -/

/-- COND holds no flag or exactly one: the four values of 10_state.md R44. -/
abbrev State.condLegal (s : State) : Prop :=
  s.cond = 0 ∨ s.cond = Config.flagP ∨ s.cond = Config.flagZ ∨ s.cond = Config.flagN

/-- The invariant every step keeps: memory in its canonical form, COND one of its four values. -/
abbrev State.Inv (s : State) : Prop := s.mem.wf ∧ s.condLegal

/-- A run in progress. -/
abbrev State.inRun (s : State) : Prop := s.running = true ∧ s.fault = none

/-- The normal end of a run, R284 (a): the run flag cleared and no failure. -/
abbrev State.ended (s : State) : Prop := s.running = false ∧ s.fault = none

/-- A failed run, R284 (b). -/
abbrev State.failed (s : State) : Prop := s.fault ≠ none

/-- R284 (c): the next step is a GETC or IN that waits for a line (43_trap.md R220). -/
abbrev State.awaitsLine (s : State) : Prop :=
  s.inRun ∧ s.cin = [] ∧ (s.fetch.map decode = .ok .getc ∨ s.fetch.map decode = .ok .in_)

/-- `t` is reached from `s` by steps. -/
inductive Reaches (s : State) : State → Prop where
  | refl : Reaches s s
  | step {t u : State} (h : Reaches s t) (hs : Machine.step t = .next u) : Reaches s u

/-! ### Effects -/

/-- The code in COND classifies a value by its sign, in the document's words ZERO, POSITIVE, NEGATIVE (R41). -/
abbrev FlagClassifies (c v : Word) : Prop :=
  (v.toInt = 0 → c = Config.flagZ) ∧ (0 < v.toInt → c = Config.flagP) ∧ (v.toInt < 0 → c = Config.flagN)

/-- Register `dr` holds `v` and COND its classification, and nothing else differs: the other registers, the program
counter, the run flag, the latch, all of memory and the console are as before. -/
abbrev State.WritesResult (s t : State) (dr : RegId) (v : Word) : Prop :=
  t.reg dr = v ∧ FlagClassifies t.cond v ∧ (∀ r, r ≠ dr → t.reg r = s.reg r) ∧ t.pc = s.pc ∧
    t.running = s.running ∧ t.fault = s.fault ∧ t.mem = s.mem ∧ t.cout = s.cout ∧ t.cin = s.cin

/-- The word at address `a` reads as `v`, every word at another address and every bit outside the sixteen bits stored
reads as before, and nothing else differs. -/
abbrev State.StoresWord (s t : State) (a : Int) (v : Word) : Prop :=
  t.memRead a = .ok v ∧ (∀ a', a' ≠ a → t.memRead a' = s.memRead a') ∧
    (∀ g : Nat, (g : Int) < bitAddr a ∨ bitAddr a + 16 ≤ (g : Int) → t.mem.bit g = s.mem.bit g) ∧
    t.mem.cellCount = s.mem.cellCount ∧ (∀ r, t.reg r = s.reg r) ∧ t.pc = s.pc ∧ t.cond = s.cond ∧
    t.running = s.running ∧ t.fault = s.fault ∧ t.cout = s.cout ∧ t.cin = s.cin

/-- The state after a failure that had no other effect. -/
abbrev State.withFailure (s : State) (k : Failure) : State := { s with fault := some k }

/-- The string of non-zero words `ws` stands at address `a`, closed by a zero word. -/
abbrev State.holdsString (s : State) (a : Int) (ws : List Word) : Prop :=
  (∀ k, (h : k < ws.length) → ws[k] ≠ 0 ∧ s.memRead (a + (k : Int) * Config.step) = .ok ws[k]) ∧
    s.memRead (a + (ws.length : Int) * Config.step) = .ok 0

/-- No zero word stands at or above address `a`. -/
abbrev State.noTerminator (s : State) (a : Int) : Prop :=
  ∀ k : Nat, s.memRead (a + (k : Int) * Config.step) ≠ .ok 0

/-! ### Which state an instruction may write -/

/-- The register whose new value sets the flags, for the instructions of 10_state.md R42. -/
def flagDest : Instr → Option RegId
  | .br _ _ _ _ => none
  | .add dr _ _ => some dr
  | .addi dr _ _ => some dr
  | .ld dr _ => some dr
  | .st _ _ => none
  | .jsr _ => none
  | .jsrr _ => none
  | .and dr _ _ => some dr
  | .andi dr _ _ => some dr
  | .ldr dr _ _ => some dr
  | .str _ _ _ => none
  | .rti => none
  | .not dr _ => some dr
  | .ldi dr _ => some dr
  | .sti _ _ => none
  | .jmp _ => none
  | .res => none
  | .lea dr _ => some dr
  | .getc => none
  | .out => none
  | .puts => none
  | .in_ => none
  | .putsp => none
  | .halt => none
  | .trap _ => none

/-- The general register an instruction writes: the column of 10_state.md R34. -/
def writtenReg : Instr → Option RegId
  | .br _ _ _ _ => none
  | .add dr _ _ => some dr
  | .addi dr _ _ => some dr
  | .ld dr _ => some dr
  | .st _ _ => none
  | .jsr _ => some 7
  | .jsrr _ => some 7
  | .and dr _ _ => some dr
  | .andi dr _ _ => some dr
  | .ldr dr _ _ => some dr
  | .str _ _ _ => none
  | .rti => none
  | .not dr _ => some dr
  | .ldi dr _ => some dr
  | .sti _ _ => none
  | .jmp _ => none
  | .res => none
  | .lea dr _ => some dr
  | .getc => some 0
  | .out => none
  | .puts => none
  | .in_ => some 0
  | .putsp => none
  | .halt => none
  | .trap _ => none

/-- The program counter after an instruction whose handler saw `s` (10_state.md R36). -/
def pcAfter (i : Instr) (s : State) : Word :=
  match i with
  | .br n z p off =>
    if (n = false ∧ z = false ∧ p = false) ∨ (n = true ∧ s.cond.getLsbD 2 = true) ∨
        (z = true ∧ s.cond.getLsbD 1 = true) ∨ (p = true ∧ s.cond.getLsbD 0 = true) then
      trunc16 (uval s.pc + off.toInt)
    else s.pc
  | .jmp base => s.reg base
  | .jsr off => trunc16 (uval s.pc + off.toInt)
  | .jsrr base => if base = 7 then s.pc else s.reg base
  | .add _ _ _ => s.pc
  | .addi _ _ _ => s.pc
  | .ld _ _ => s.pc
  | .st _ _ => s.pc
  | .and _ _ _ => s.pc
  | .andi _ _ _ => s.pc
  | .ldr _ _ _ => s.pc
  | .str _ _ _ => s.pc
  | .rti => s.pc
  | .not _ _ => s.pc
  | .ldi _ _ => s.pc
  | .sti _ _ => s.pc
  | .res => s.pc
  | .lea _ _ => s.pc
  | .getc => s.pc
  | .out => s.pc
  | .puts => s.pc
  | .in_ => s.pc
  | .putsp => s.pc
  | .halt => s.pc
  | .trap _ => s.pc

/-- A word as the sixteen binary digits `writeProgram` takes, most significant first (30_encoding.md R115). -/
def wordDigits (w : Word) : List Char :=
  (List.range 16).map (fun j => if w.getLsbD (15 - j) then '1' else '0')

/-- `t` is `s` with the words `ws` loaded at `origin`, `origin + STEP`, ...: those words read as `ws`, every other word
reads as before, and nothing else differs, the failure latch apart, of which this says nothing (R285). -/
abbrev State.LoadsWords (s t : State) (origin : Int) (ws : List Word) : Prop :=
  (∀ k, (h : k < ws.length) → t.memRead (origin + (k : Int) * Config.step) = .ok ws[k]) ∧
    (∀ a : Int, (∀ k : Nat, k < ws.length → a ≠ origin + (k : Int) * Config.step) → t.memRead a = s.memRead a) ∧
    t.mem.cellCount = s.mem.cellCount ∧ (∀ r, t.reg r = s.reg r) ∧ t.pc = s.pc ∧ t.cond = s.cond ∧
    t.running = s.running ∧ t.cout = s.cout ∧ t.cin = s.cin

/-- Word number `j` of a load at `origin` is the first whose address is invalid. -/
abbrev State.firstInvalidWord (s : State) (origin : Int) (j : Nat) : Prop :=
  (∀ k : Nat, k < j → s.validAddr (origin + (k : Int) * Config.step)) ∧
    ¬s.validAddr (origin + (j : Int) * Config.step)

/-- The next chunk of a program text is malformed: shorter than sixteen characters, or with a character that is no binary
digit (R285). -/
abbrev malformedChunk (text : List Char) : Prop :=
  text ≠ [] ∧ (text.length < 16 ∨ ∃ c ∈ text.take 16, c ≠ '0' ∧ c ≠ '1')

end Sys2Proof.Machine
end

