-- ==== Sys2Proof/Certificates/Slice0/Obligations.lean ====
section
/-! DEFINITION. The statements for the provers. Each docstring names the rule of spec/ it formalises, and the log entry
(notes/assumptions/<n>.md) of any decision a clause rests on. In every statement about `exec` the state's program counter
is the incremented one the handler sees (70_reset_and_hazards.md R283). -/

open Sys2Proof Sys2Proof.Machine

/-! ### Encoding -/

/-- Decode and encode agree on every well-formed instruction, every operand at every value (R103, R105, R106; field
positions, opcode numbers and trap codes are the spec's D5-D7, log entries 5-7). -/
def Obligations.DecodeEncodeAgree : Prop :=
  ∀ i : Instr, i.wellFormed = true → decode (encode i) = i

/-- The opcode map R106 with the slices of R103, by the masks of the opcode table and plain arithmetic on the word
(positions and numbers: D5-D7, log entries 5-7). -/
def Obligations.DecodeFollowsTheOpcodeMap : Prop :=
  ∀ (w : Word) (a b c : RegId), a.val = w.toNat / 512 % 8 → b.val = w.toNat / 64 % 8 → c.val = w.toNat % 8 →
    (w &&& 0xF000 = 0x0000 → decode w = .br (w.getLsbD 11) (w.getLsbD 10) (w.getLsbD 9) (BitVec.ofNat 9 w.toNat)) ∧
    (w &&& 0xF020 = 0x1000 → decode w = .add a b c) ∧
    (w &&& 0xF020 = 0x1020 → decode w = .addi a b (BitVec.ofNat 5 w.toNat)) ∧
    (w &&& 0xF000 = 0x2000 → decode w = .ld a (BitVec.ofNat 9 w.toNat)) ∧
    (w &&& 0xF000 = 0x3000 → decode w = .st a (BitVec.ofNat 9 w.toNat)) ∧
    (w &&& 0xF800 = 0x4800 → decode w = .jsr (BitVec.ofNat 11 w.toNat)) ∧
    (w &&& 0xF800 = 0x4000 → decode w = .jsrr b) ∧
    (w &&& 0xF020 = 0x5000 → decode w = .and a b c) ∧
    (w &&& 0xF020 = 0x5020 → decode w = .andi a b (BitVec.ofNat 5 w.toNat)) ∧
    (w &&& 0xF000 = 0x6000 → decode w = .ldr a b (BitVec.ofNat 6 w.toNat)) ∧
    (w &&& 0xF000 = 0x7000 → decode w = .str a b (BitVec.ofNat 6 w.toNat)) ∧
    (w &&& 0xF000 = 0x8000 → decode w = .rti) ∧
    (w &&& 0xF000 = 0x9000 → decode w = .not a b) ∧
    (w &&& 0xF000 = 0xA000 → decode w = .ldi a (BitVec.ofNat 9 w.toNat)) ∧
    (w &&& 0xF000 = 0xB000 → decode w = .sti a (BitVec.ofNat 9 w.toNat)) ∧
    (w &&& 0xF000 = 0xC000 → decode w = .jmp b) ∧
    (w &&& 0xF000 = 0xD000 → decode w = .res) ∧
    (w &&& 0xF000 = 0xE000 → decode w = .lea a (BitVec.ofNat 9 w.toNat)) ∧
    (w &&& 0xF0FF = 0xF020 → decode w = .getc) ∧
    (w &&& 0xF0FF = 0xF021 → decode w = .out) ∧
    (w &&& 0xF0FF = 0xF022 → decode w = .puts) ∧
    (w &&& 0xF0FF = 0xF023 → decode w = .in_) ∧
    (w &&& 0xF0FF = 0xF024 → decode w = .putsp) ∧
    (w &&& 0xF0FF = 0xF025 → decode w = .halt) ∧
    (w &&& 0xF000 = 0xF000 → w.toNat % 256 < 0x20 ∨ 0x25 < w.toNat % 256 → decode w = .trap (BitVec.ofNat 8 w.toNat))

/-- The bits of no field do not matter (R107; D18, log entry 17): changing any of them leaves the instruction. -/
def Obligations.UnexaminedBitsDoNotMatter : Prop :=
  ∀ w m : Word, decode (w ^^^ (m &&& (decode w).unexamined)) = decode w

/-- Every word decodes to a well-formed instruction (R110), and encoding it gives back every bit that is examined (R103,
R107). -/
def Obligations.EveryWordDecodesAndReencodes : Prop :=
  ∀ w : Word, (decode w).wellFormed = true ∧
    encode (decode w) &&& ~~~(decode w).unexamined = w &&& ~~~(decode w).unexamined

/-- Words spelled field by field from the document and the spec decode to what they stand for: the two ADD words of
R116, and one of each other family (R106). -/
def Obligations.SampleWordsDecode : Prop :=
  decode 0b0001_000_001_0_00_010 = .add 0 1 2 ∧ decode 0b0001_111_101_1_10101 = .addi 7 5 0b10101 ∧
    decode 0b0110_010_011_111111 = .ldr 2 3 0b111111 ∧ decode 0b0011_011_000001111 = .st 3 0b000001111 ∧
    decode 0b0000_010_111111101 = .br false true false 0b111111101 ∧ decode 0b0100_1_00000000011 = .jsr 3 ∧
    decode 0b1111_0000_00100101 = .halt ∧ decode 0b1111_0000_00100110 = .trap 0x26

/-- Sign and zero extension of a field of 1 to 16 bits (R12). -/
def Obligations.ExtensionFillsTheHigherBits : Prop :=
  ∀ (N : Nat) (f : BitVec N), 1 ≤ N → N ≤ 16 →
    (f.getLsbD (N - 1) = false → sext f = f.setWidth 16 ∧ sval (sext f) = (f.toNat : Int)) ∧
    (f.getLsbD (N - 1) = true →
      sext f = f.setWidth 16 ||| (0xFFFF#16 <<< N) ∧ sval (sext f) = (f.toNat : Int) - 2 ^ N) ∧
    (∀ k, (zext f).getLsbD k = (decide (k < N) && f.getLsbD k))

/-! ### The memory engine -/

/-- `generateMask` as the integer of R63, its complement, and the degenerate case. -/
def Obligations.MaskClearsExactlyItsRange : Prop :=
  ∀ (width lo hi : Nat) (h : lo ≤ hi ∧ hi ≤ width),
    (generateMask width lo hi h).toNat = (2 ^ width - 1) - (2 ^ (width - lo) - 2 ^ (width - hi)) ∧
    (~~~generateMask width lo hi h).toNat = 2 ^ (width - lo) - 2 ^ (width - hi) ∧
    (lo = hi → generateMask width lo hi h = BitVec.allOnes width)

/-- The range check (R65), for every instruction width the engine accepts: outside `[0, MAX_ADDR]` both operations fail
with the address, inside both succeed and the access lies wholly in the arena, `MAX_ADDR` included and `MAX_ADDR + 1`
excluded. -/
def Obligations.AccessFailsExactlyOutsideTheArena : Prop :=
  ∀ (I : Nat) (hI : 2 ≤ I ∧ I ≤ 64) (m : Memory) (b : Int) (v : BitVec I),
    (b < 0 ∨ m.maxAddress I < b →
      engineRead I hI m b = .error (.addressOutOfRange b) ∧ engineWrite I hI m b v = .error (.addressOutOfRange b)) ∧
    (0 ≤ b → b ≤ m.maxAddress I →
      ((∃ x, engineRead I hI m b = .ok x) ∧ ∃ m', engineWrite I hI m b v = .ok m') ∧
        b + (I : Int) - 1 ≤ (m.cellCount : Int) * 64 - 1) ∧
    (engineRead I hI m (m.maxAddress I + 1) = .error (.addressOutOfRange (m.maxAddress I + 1)) ∧
      engineWrite I hI m (m.maxAddress I + 1) v = .error (.addressOutOfRange (m.maxAddress I + 1))) ∧
    (0 < m.cellCount → (∃ x, engineRead I hI m (m.maxAddress I) = .ok x) ∧
      ∃ m', engineWrite I hI m (m.maxAddress I) v = .ok m')

/-- The functional statement of write (R69, which the spec derives): the most significant bit lands on the lowest bit
address, every other bit of the arena is unchanged, and so is the number of cells. -/
def Obligations.WritePlacesItsBits : Prop :=
  ∀ (I : Nat) (hI : 2 ≤ I ∧ I ≤ 64) (m m' : Memory) (b : Nat) (v : BitVec I),
    engineWrite I hI m b v = .ok m' →
      (∀ j, j < I → m'.bit (b + j) = v.getLsbD (I - 1 - j)) ∧
      (∀ g, g < b ∨ b + I ≤ g → m'.bit g = m.bit g) ∧ m'.cellCount = m.cellCount

/-- The functional statement of read (R73, which the spec derives). -/
def Obligations.ReadReturnsTheArenaBits : Prop :=
  ∀ (I : Nat) (hI : 2 ≤ I ∧ I ≤ 64) (m : Memory) (b : Nat) (x : BitVec I),
    engineRead I hI m b = .ok x → ∀ j, j < I → x.getLsbD (I - 1 - j) = m.bit (b + j)

/-- The round trip (R74), for every cell count, instruction width, valid address and value, split or not, and until a
later write overlaps the value. -/
def Obligations.ReadAfterWriteReturnsTheValue : Prop :=
  ∀ (I : Nat) (hI : 2 ≤ I ∧ I ≤ 64) (m : Memory) (b : Int) (v : BitVec I), 0 ≤ b → b ≤ m.maxAddress I →
    ∃ m', engineWrite I hI m b v = .ok m' ∧ engineRead I hI m' b = .ok v ∧
      ∀ (c : Int) (u : BitVec I) (m2 : Memory), c + (I : Int) ≤ b ∨ b + (I : Int) ≤ c →
        engineWrite I hI m' c u = .ok m2 → engineRead I hI m2 b = .ok v

/-- Two accesses whose bit addresses differ by at least `I` do not disturb each other (the last sentence of R75). -/
def Obligations.DistantWritesDoNotDisturb : Prop :=
  ∀ (I : Nat) (hI : 2 ≤ I ∧ I ≤ 64) (m m' : Memory) (b c : Int) (v : BitVec I),
    engineWrite I hI m b v = .ok m' → c + (I : Int) ≤ b ∨ b + (I : Int) ≤ c →
      engineRead I hI m' c = engineRead I hI m c

/-- The words of a cell, most significant first (R80, with UNIT = 16: D1, log entry 1). -/
def Obligations.CellHoldsFourWordsHighFirst : Prop :=
  ∀ (s : State) (k : Nat), k < s.mem.cellCount → ∃ w0 w1 w2 w3 : Word,
    s.memRead (4 * k) = .ok w0 ∧ s.memRead (4 * k + 1) = .ok w1 ∧ s.memRead (4 * k + 2) = .ok w2 ∧
    s.memRead (4 * k + 3) = .ok w3 ∧
    (s.mem.cellAt k).toNat = w0.toNat * 2 ^ 48 + w1.toNat * 2 ^ 32 + w2.toNat * 2 ^ 16 + w3.toNat

/-- Which architectural addresses name a word (R79, which the spec derives; UNIT = 16: D1, log entry 1; no wrap: D4, log
entry 4): exactly 0 .. 4*N_CELLS - 1, for reads and writes alike. -/
def Obligations.WordAddressesAreFourPerCell : Prop :=
  ∀ (s : State) (a : Int) (v : Word),
    (0 ≤ a → a ≤ 4 * (s.mem.cellCount : Int) - 1 → (∃ w, s.memRead a = .ok w) ∧ ∃ m, s.memWrite a v = .ok m) ∧
    (a < 0 ∨ 4 * (s.mem.cellCount : Int) - 1 < a →
      s.memRead a = .error (.addressOutOfRange (16 * a)) ∧ s.memWrite a v = .error (.addressOutOfRange (16 * a)))

/-- Two memories in canonical form with the same number of cells and the same cells are equal data (the model's own
form: log entry 29). -/
def Obligations.EqualMemoriesAreEqualData : Prop :=
  ∀ m m' : Memory, m.wf → m'.wf → m.cellCount = m'.cellCount → (∀ k, m.cellAt k = m'.cellAt k) → m = m'

/-! ### Construction, reset, the run -/

/-- Construction (R61, R241, R280) with the values of R53 after it: bad parameters fail; any width from 2 to 64 gives an
engine of that many zero cells; at width 16 it gives a machine with every register 0 and nothing running. Zero cells are D15
(log entry 15), the empty `cin` and the 16384 cells of State.reset the model's choices (log entries 26, 3). -/
def Obligations.ConstructionGivesTheResetValues : Prop :=
  (∀ n i : Int, n ≤ 0 ∨ i < 2 ∨ 64 < i → engineNew n i = .error .invalidConfiguration) ∧
  (∀ n i : Int, 0 < n → 2 ≤ i → i ≤ 64 →
    ∃ m, engineNew n i = .ok m ∧ (m.cellCount : Int) = n ∧ ∀ k, m.cellAt k = 0) ∧
  (∀ n : Int, n ≤ 0 → construct n = .error .invalidConfiguration) ∧
  (∀ n : Int, 0 < n → ∃ s, construct n = .ok s ∧ (s.mem.cellCount : Int) = n ∧ (∀ k, s.mem.cellAt k = 0) ∧
    (∀ r, s.reg r = 0) ∧ s.pc = 0 ∧ s.cond = 0 ∧ s.running = false ∧ s.fault = none ∧ s.cout = [] ∧ s.cin = []) ∧
  construct 16384 = .ok State.reset

/-- The invariant holds at reset: COND is one of the four values of R44, and memory is in its canonical form, which is the
model's own (log entry 29), with no cell listed (zero cells: D15, log entry 15). -/
def Obligations.InvariantHoldsAtReset : Prop := State.reset.Inv

/-- Every step keeps the invariant: memory stays in its canonical form and COND stays 0 or one flag (R44, "flags never
combine"; the canonical form is the model's: log entry 29). -/
def Obligations.StepKeepsTheInvariant : Prop :=
  ∀ s t : State, s.Inv → step s = .next t → t.Inv

/-- One step of a machine in a run (R283): the word at the program counter is fetched, the program counter is
incremented by STEP, and the decoded instruction runs; if the fetch fails the failure is latched and the program
counter is not incremented. -/
def Obligations.StepRunsTheDecodedInstruction : Prop :=
  ∀ s : State, s.running = true → s.fault = none →
    (∀ ir, s.memRead (uval s.pc) = .ok ir →
      step s = exec (decode ir) { s with pc := trunc16 (uval s.pc + Config.step) }) ∧
    (∀ k, s.memRead (uval s.pc) = .error k → step s = .next { s with fault := some k })

/-- No step after a failure, none outside a run (R46, R284; how the stop is answered is the model's: log entries 20,
27). -/
def Obligations.NoStepAfterAFailureOrOutsideARun : Prop :=
  (∀ (s : State) (k : Failure), s.fault = some k → step s = .fault (.latched k)) ∧
  (∀ s : State, s.fault = none → s.running = false → step s = .fault .notRunning)

/-- The run flag (R45): initially false, set by `run()`, cleared by HALT, written by no other step, not by a failed fetch,
and by no other call of the host; steps repeat only while it is set, and no instruction reads it. -/
def Obligations.OnlyRunAndHaltWriteTheRunFlag : Prop :=
  State.reset.running = false ∧
  (∀ s t : State, s.run = .next t → t.running = true) ∧
  (∀ (s t : State) (origin : Int) (bits : List Char), s.writeProgram origin bits = .next t → t.running = s.running) ∧
  (∀ (i : Instr) (s t : State), exec i s = .next t → i = .halt ∧ t.running = false ∨ i ≠ .halt ∧ t.running = s.running) ∧
  (∀ s t : State, step s = .next t →
    s.fetch.map decode = .ok .halt ∧ t.running = false ∨ s.fetch.map decode ≠ .ok .halt ∧ t.running = s.running) ∧
  (∀ (s : State) (line : Text), (s.supplyLine line).running = s.running) ∧
  (∀ s t : State, s.running = false → step s ≠ .next t) ∧
  (∀ (i : Instr) (s : State) (b : Bool), i ≠ .halt →
    exec i { s with running := b } =
      match exec i s with
      | .next t => .next { t with running := b }
      | .fault r => .fault r
      | .refused r => .refused r)

/-- Which instructions write COND (R42): those with a flag destination classify what it holds now, unless their access
failed; every other instruction leaves COND unchanged. -/
def Obligations.FlagsAreWrittenOnlyByFlagInstructions : Prop :=
  ∀ (i : Instr) (s t : State), s.fault = none → exec i s = .next t →
    (∀ dr, flagDest i = some dr → t.fault = none → FlagClassifies t.cond (t.reg dr)) ∧
    (flagDest i = none ∨ t.fault ≠ none → t.cond = s.cond)

/-- COND is read only by BR (R43): a run of any other instruction from a state that differs in COND alone differs in
COND alone, and only where the instruction writes no flag. -/
def Obligations.OnlyBrReadsTheFlags : Prop :=
  ∀ (i : Instr) (s t : State) (c : Word), (∀ n z p off, i ≠ .br n z p off) → exec i s = .next t →
    ∃ t', exec i { s with cond := c } = .next t' ∧ t' = { t with cond := t'.cond } ∧
      (t'.cond = t.cond ∨ (t'.cond = c ∧ t.cond = s.cond))

/-- Once a flag is set, COND is never 0 again, and `run()` does not reset it (R44, R287). -/
def Obligations.FlagsNeverReturnToNone : Prop :=
  (∀ s t : State, s.cond ≠ 0 → step s = .next t → t.cond ≠ 0) ∧ (∀ s t : State, s.run = .next t → t.cond = s.cond)

/-- Which general registers an instruction writes: its column of R34, no other. -/
def Obligations.RegistersAreWrittenOnlyByTheirInstructions : Prop :=
  ∀ (i : Instr) (s t : State) (r : RegId), exec i s = .next t → writtenReg i ≠ some r → t.reg r = s.reg r

/-- Only ST, STI and STR write memory and no instruction changes the number of cells (R61, R218); only the services
touch the console, and GETC and IN alone consume input (R83, R221). -/
def Obligations.OnlyStoresWriteMemoryAndOnlyServicesTouchTheConsole : Prop :=
  ∀ (i : Instr) (s t : State), exec i s = .next t →
    t.mem.cellCount = s.mem.cellCount ∧
    ((∀ r off, i ≠ .st r off) → (∀ r off, i ≠ .sti r off) → (∀ r b off, i ≠ .str r b off) → t.mem = s.mem) ∧
    (i ≠ .out → i ≠ .puts → i ≠ .putsp → i ≠ .in_ → t.cout = s.cout) ∧
    (i ≠ .getc → i ≠ .in_ → t.cin = s.cin) ∧ (i = .getc ∨ i = .in_ → ∃ line, s.cin = line :: t.cin)

/-- A step latches only a failed range check, an undefined trap code or the empty line of IN; UnknownOpcode,
UnknownRegister, InvalidConfiguration and MalformedProgram are never raised by a step (R241-R246; the empty line: 93 U5,
log entry 24). -/
def Obligations.OnlyThreeFailuresAriseInARun : Prop :=
  ∀ (s t : State) (k : Failure), step s = .next t → t.fault = some k →
    (∃ b : Int, k = .addressOutOfRange b ∧ (b < 0 ∨ s.mem.maxAddress 16 < b)) ∨
    (∃ v, k = .unknownTrapCode v ∧ isServiceCode v = false) ∨ k = .unspecifiedInEmptyLine

/-- A failed instruction has changed nothing but the latch (R247, R250, which the spec derives), except IN, whose prompt
is written and whose line is consumed. -/
def Obligations.FailedInstructionHasNoOtherEffect : Prop :=
  ∀ (i : Instr) (s t : State) (k : Failure), s.fault = none → exec i s = .next t → t.fault = some k →
    (i ≠ .in_ ∧ t = s.withFailure k) ∨
    (i = .in_ ∧ k = .unspecifiedInEmptyLine ∧
      t = { s with fault := some k, cout := s.cout ++ Config.inPrompt, cin := s.cin.tail })

/-- Every step of a run completes, except a GETC or IN with no line, which waits (R220, R291); nothing is refused. -/
def Obligations.EveryStepOfARunCompletesOrAwaitsALine : Prop :=
  (∀ s : State, s.inRun → ¬s.awaitsLine → ∃ t, step s = .next t) ∧
  (∀ s : State, s.awaitsLine → step s = .fault .stuckAwaitingLine) ∧
  (∀ (s : State) (r : Refusal), step s ≠ .refused r)

/-- How each step leaves the program counter (R36): pc0 when the fetch fails, otherwise what the instruction makes of
pcn = trunc16(pc0 + STEP). -/
def Obligations.ProgramCounterAfterEachStep : Prop :=
  ∀ s t : State, step s = .next t →
    (∀ k, s.fetch = .error k → t.pc = s.pc) ∧
    (∀ ir, s.fetch = .ok ir → t.pc = pcAfter (decode ir) { s with pc := trunc16 (uval s.pc + Config.step) })

/-- A run ends in at most one state (R284): two terminal states reached from one state are the same. -/
def Obligations.TheEndOfARunIsUnique : Prop :=
  ∀ s t u : State, Reaches s t → Reaches s u → t.ended ∨ t.failed → u.ended ∨ u.failed → t = u

/-! ### Operate instructions -/

/-- ADD, register form (R140). -/
def Obligations.AddSumsTwoRegisters : Prop :=
  ∀ (dr sr1 sr2 : RegId) (s : State), ∃ t, exec (.add dr sr1 sr2) s = .next t ∧
    s.WritesResult t dr (s.reg sr1 + s.reg sr2)

/-- ADD, immediate form (R141). -/
def Obligations.AddiSumsARegisterAndItsImmediate : Prop :=
  ∀ (dr sr1 : RegId) (imm : BitVec 5) (s : State), ∃ t, exec (.addi dr sr1 imm) s = .next t ∧
    s.WritesResult t dr (s.reg sr1 + imm.signExtend 16)

/-- AND, both forms (R142, R143). -/
def Obligations.AndCombinesBitwise : Prop :=
  (∀ (dr sr1 sr2 : RegId) (s : State), ∃ t v, exec (.and dr sr1 sr2) s = .next t ∧ s.WritesResult t dr v ∧
    ∀ k, v.getLsbD k = ((s.reg sr1).getLsbD k && (s.reg sr2).getLsbD k)) ∧
  (∀ (dr sr1 : RegId) (imm : BitVec 5) (s : State), ∃ t v, exec (.andi dr sr1 imm) s = .next t ∧
    s.WritesResult t dr v ∧
    ∀ k, k < 16 → v.getLsbD k = ((s.reg sr1).getLsbD k && imm.getLsbD (min k 4)))

/-- NOT (R144): the complement, as the integer 0xFFFF - uval. -/
def Obligations.NotComplements : Prop :=
  ∀ (dr sr : RegId) (s : State), ∃ t v, exec (.not dr sr) s = .next t ∧ s.WritesResult t dr v ∧
    v.toNat = 0xFFFF - (s.reg sr).toNat

/-! ### Data movement -/

/-- LD (R161): a valid exact effective address loads its word; otherwise the failure is latched and nothing else
changes. -/
def Obligations.LdLoadsPcRelative : Prop :=
  ∀ (dr : RegId) (off : BitVec 9) (s : State),
    (s.validAddr (uval s.pc + off.toInt) → ∃ v t, s.memRead (uval s.pc + off.toInt) = .ok v ∧
      exec (.ld dr off) s = .next t ∧ s.WritesResult t dr v) ∧
    (¬s.validAddr (uval s.pc + off.toInt) →
      exec (.ld dr off) s = .next (s.withFailure (.addressOutOfRange (bitAddr (uval s.pc + off.toInt)))))

/-- LDI (R162): the word the pointer names is loaded; a failure of the pointer read comes first. -/
def Obligations.LdiLoadsThroughAPointer : Prop :=
  ∀ (dr : RegId) (off : BitVec 9) (s : State),
    (¬s.validAddr (uval s.pc + off.toInt) →
      exec (.ldi dr off) s = .next (s.withFailure (.addressOutOfRange (bitAddr (uval s.pc + off.toInt))))) ∧
    (s.validAddr (uval s.pc + off.toInt) → ∃ p, s.memRead (uval s.pc + off.toInt) = .ok p ∧
      (s.validAddr (uval p) → ∃ v t, s.memRead (uval p) = .ok v ∧ exec (.ldi dr off) s = .next t ∧
        s.WritesResult t dr v) ∧
      (¬s.validAddr (uval p) →
        exec (.ldi dr off) s = .next (s.withFailure (.addressOutOfRange (bitAddr (uval p))))))

/-- LDR (R163): DR may be the base, which is read first. -/
def Obligations.LdrLoadsBasePlusOffset : Prop :=
  ∀ (dr base : RegId) (off : BitVec 6) (s : State),
    (s.validAddr (uval (s.reg base) + off.toInt) → ∃ v t, s.memRead (uval (s.reg base) + off.toInt) = .ok v ∧
      exec (.ldr dr base off) s = .next t ∧ s.WritesResult t dr v) ∧
    (¬s.validAddr (uval (s.reg base) + off.toInt) →
      exec (.ldr dr base off) s =
        .next (s.withFailure (.addressOutOfRange (bitAddr (uval (s.reg base) + off.toInt)))))

/-- LEA (R164): the address wraps, no access is made, the flags are set. -/
def Obligations.LeaWritesTheAddress : Prop :=
  ∀ (dr : RegId) (off : BitVec 9) (s : State), ∃ t, exec (.lea dr off) s = .next t ∧
    s.WritesResult t dr (s.pc + off.signExtend 16)

/-- ST (R165). -/
def Obligations.StStoresPcRelative : Prop :=
  ∀ (sr : RegId) (off : BitVec 9) (s : State),
    (s.validAddr (s.pcRelative off) → ∃ t, exec (.st sr off) s = .next t ∧
      s.StoresWord t (s.pcRelative off) (s.reg sr)) ∧
    (¬s.validAddr (s.pcRelative off) →
      exec (.st sr off) s = .next (s.withFailure (.addressOutOfRange (bitAddr (s.pcRelative off))))) ∧
    s.pcRelative off = uval s.pc + off.toInt

/-- STI (R166): the pointer is read before the write, and its failure comes first. -/
def Obligations.StiStoresThroughAPointer : Prop :=
  ∀ (sr : RegId) (off : BitVec 9) (s : State),
    (¬s.validAddr (s.pcRelative off) →
      exec (.sti sr off) s = .next (s.withFailure (.addressOutOfRange (bitAddr (s.pcRelative off))))) ∧
    (s.validAddr (s.pcRelative off) → ∃ p, s.memRead (s.pcRelative off) = .ok p ∧
      (s.validAddr (uval p) → ∃ t, exec (.sti sr off) s = .next t ∧ s.StoresWord t (uval p) (s.reg sr)) ∧
      (¬s.validAddr (uval p) →
        exec (.sti sr off) s = .next (s.withFailure (.addressOutOfRange (bitAddr (uval p))))))

/-- STR (R167): SR may be the base. -/
def Obligations.StrStoresBasePlusOffset : Prop :=
  ∀ (sr base : RegId) (off : BitVec 6) (s : State),
    (s.validAddr (s.baseOffset base off) → ∃ t, exec (.str sr base off) s = .next t ∧
      s.StoresWord t (s.baseOffset base off) (s.reg sr)) ∧
    (¬s.validAddr (s.baseOffset base off) →
      exec (.str sr base off) s = .next (s.withFailure (.addressOutOfRange (bitAddr (s.baseOffset base off))))) ∧
    s.baseOffset base off = uval (s.reg base) + off.toInt

/-- A store is seen by the very next fetch (R89, R289): ST with offset 0 replaces the next instruction word. -/
def Obligations.StoreIsSeenByTheNextFetch : Prop :=
  ∀ (sr : RegId) (s : State), s.validAddr (uval s.pc) →
    ∃ t, exec (.st sr 0) s = .next t ∧ t.pc = s.pc ∧ t.fetch = .ok (s.reg sr)

/-! ### Control -/

/-- BR (R190; flag codes by D8, wrap by D16, log entries 8, 16): taken exactly when n = z = p = 0 or the bit of the
current flag is set; nothing but the program counter changes. -/
def Obligations.BrBranchesOnTheCurrentFlag : Prop :=
  ∀ (n z p : Bool) (off : BitVec 9) (s : State), s.condLegal →
    ((n = false ∧ z = false ∧ p = false) ∨ (n = true ∧ s.cond = Config.flagN) ∨ (z = true ∧ s.cond = Config.flagZ) ∨
        (p = true ∧ s.cond = Config.flagP) →
      exec (.br n z p off) s = .next { s with pc := s.pc + off.signExtend 16 }) ∧
    (¬(n = false ∧ z = false ∧ p = false) → ¬(n = true ∧ s.cond = Config.flagN) → ¬(z = true ∧ s.cond = Config.flagZ) →
      ¬(p = true ∧ s.cond = Config.flagP) → exec (.br n z p off) s = .next s)

/-- JMP (R191), RET among it: only the program counter changes. -/
def Obligations.JmpJumpsToTheRegister : Prop :=
  ∀ (base : RegId) (s : State), exec (.jmp base) s = .next { s with pc := s.reg base }

/-- JSR (R192): R7 holds the return address, the program counter the wrapped target, nothing else changes. -/
def Obligations.JsrCallsPcRelative : Prop :=
  ∀ (off : BitVec 11) (s : State), ∃ t, exec (.jsr off) s = .next t ∧ t.reg 7 = s.pc ∧
    t.pc = s.pc + off.signExtend 16 ∧ (∀ r, r ≠ 7 → t.reg r = s.reg r) ∧ t.cond = s.cond ∧ t.running = s.running ∧
    t.fault = s.fault ∧ t.mem = s.mem ∧ t.cout = s.cout ∧ t.cin = s.cin

/-- JSRR (R193; the order of its two effects is D10, log entry 10): R7 first, so JSRR R7 goes to the next instruction. -/
def Obligations.JsrrCallsThroughARegister : Prop :=
  ∀ (base : RegId) (s : State), ∃ t, exec (.jsrr base) s = .next t ∧ t.reg 7 = s.pc ∧
    (base ≠ 7 → t.pc = s.reg base) ∧ (base = 7 → t.pc = s.pc) ∧ (∀ r, r ≠ 7 → t.reg r = s.reg r) ∧
    t.cond = s.cond ∧ t.running = s.running ∧ t.fault = s.fault ∧ t.mem = s.mem ∧ t.cout = s.cout ∧ t.cin = s.cin

/-- RTI and RES (R194, R195): nothing beyond the common increment. -/
def Obligations.ReservedOpcodesDoNothing : Prop :=
  ∀ s : State, exec .rti s = .next s ∧ exec .res s = .next s

/-! ### TRAP and its services -/

/-- GETC (R211; one whole line and 16-bit characters are D11, D12, log entries 11, 12): with a line available, it is
consumed and R0 holds its first character, or 0; nothing else changes, COND included. Without one it waits (R220). -/
def Obligations.GetcReadsALine : Prop :=
  (∀ (s : State) (line : Text) (rest : List Text), s.cin = line :: rest → ∃ t, exec .getc s = .next t ∧
    t.reg 0 = line.headD 0 ∧ t.cin = rest ∧ (∀ r, r ≠ 0 → t.reg r = s.reg r) ∧ t.pc = s.pc ∧ t.cond = s.cond ∧
    t.running = s.running ∧ t.fault = s.fault ∧ t.mem = s.mem ∧ t.cout = s.cout) ∧
  (∀ s : State, s.cin = [] → exec .getc s = .fault .stuckAwaitingLine)

/-- OUT (R212): the low byte of R0, as one character; nothing but the output changes. -/
def Obligations.OutWritesTheLowByte : Prop :=
  ∀ s : State, exec .out s = .next { s with cout := s.cout ++ [BitVec.ofNat 16 ((s.reg 0).toNat % 256)] }

/-- PUTS (R213; whole words as characters is D12, no wrap D17, log entries 12, 4): the string at R0 is written; with no
terminator in memory the first address outside it fails and nothing is written. -/
def Obligations.PutsWritesTheString : Prop :=
  ∀ s : State,
    (∀ ws, s.holdsString (uval (s.reg 0)) ws → exec .puts s = .next { s with cout := s.cout ++ ws }) ∧
    (s.noTerminator (uval (s.reg 0)) → ∃ k : Nat,
      ¬s.validAddr (uval (s.reg 0) + (k : Int) * Config.step) ∧
      (∀ j : Nat, j < k → s.validAddr (uval (s.reg 0) + (j : Int) * Config.step)) ∧
      exec .puts s =
        .next (s.withFailure (.addressOutOfRange (bitAddr (uval (s.reg 0) + (k : Int) * Config.step)))))

/-- IN (R214; the prompt is free, D13, log entry 13): prompt, one line consumed, its first character to R0, COND
unchanged; an empty line fails after the prompt (93 U5, log entry 24); without a line it waits (R220). -/
def Obligations.InPromptsAndReadsALine : Prop :=
  (∀ (s : State) (c : Character) (cs : Text) (rest : List Text), s.cin = (c :: cs) :: rest → ∃ t,
    exec .in_ s = .next t ∧ t.reg 0 = c ∧ t.cin = rest ∧ t.cout = s.cout ++ Config.inPrompt ∧
    (∀ r, r ≠ 0 → t.reg r = s.reg r) ∧ t.pc = s.pc ∧ t.cond = s.cond ∧ t.running = s.running ∧ t.fault = s.fault ∧
    t.mem = s.mem) ∧
  (∀ (s : State) (rest : List Text), s.cin = [] :: rest → exec .in_ s =
    .next { s with fault := some .unspecifiedInEmptyLine, cout := s.cout ++ Config.inPrompt, cin := rest }) ∧
  (∀ s : State, s.cin = [] → exec .in_ s = .fault .stuckAwaitingLine)

/-- PUTSP (R215; zero bytes included is D14, no wrap D17, log entries 14, 4): each word of the string at R0 gives its high
byte, then its low byte; with no terminator in memory the first address outside it fails and nothing is written. -/
def Obligations.PutspWritesPackedCharacters : Prop :=
  ∀ s : State,
    (∀ ws, s.holdsString (uval (s.reg 0)) ws → ∃ t : Text,
      exec .putsp s = .next { s with cout := s.cout ++ t } ∧ t.length = 2 * ws.length ∧
      ∀ k, (h : k < ws.length) →
        t[2 * k]? = some (BitVec.ofNat 16 (ws[k].toNat / 256)) ∧
        t[2 * k + 1]? = some (BitVec.ofNat 16 (ws[k].toNat % 256))) ∧
    (s.noTerminator (uval (s.reg 0)) → ∃ k : Nat,
      ¬s.validAddr (uval (s.reg 0) + (k : Int) * Config.step) ∧
      (∀ j : Nat, j < k → s.validAddr (uval (s.reg 0) + (j : Int) * Config.step)) ∧
      exec .putsp s =
        .next (s.withFailure (.addressOutOfRange (bitAddr (uval (s.reg 0) + (k : Int) * Config.step)))))

/-- HALT (R216): the run flag is cleared and nothing else changes. -/
def Obligations.HaltEndsTheRun : Prop :=
  ∀ s : State, exec .halt s = .next { s with running := false }

/-- A trap code that names no service (R217): UnknownTrapCode with the code is latched and nothing else changes. -/
def Obligations.UndefinedTrapCodeFails : Prop :=
  ∀ (v : BitVec 8) (s : State), exec (.trap v) s = .next (s.withFailure (.unknownTrapCode v))

/-! ### The host's operations -/

/-- The call of `run()` (R282, R287): pc = 0x3000 and running = 1, everything else kept; refused after a failure or
during a run (93 U7, log entry 28). -/
def Obligations.RunStartsAtTheStartAddress : Prop :=
  (∀ s : State, s.fault = none → s.running = false → s.run = .next { s with pc := 0x3000, running := true }) ∧
  (∀ s : State, s.fault ≠ none → s.run = .refused .hostCallAfterFailure) ∧
  (∀ s : State, s.fault = none → s.running = true → s.run = .refused .hostCallWhileRunning)

/-- `writeProgram` on well-formed text whose addresses are valid (R285; UNIT = 16 is D1, log entry 1): word
`origin + k*STEP` holds chunk `k`, every other word and every other part of the state is unchanged, and no failure is
latched. -/
def Obligations.WriteProgramStoresItsChunks : Prop :=
  ∀ (s : State) (origin : Int) (ws : List Word), s.fault = none → s.running = false →
    (∀ k : Nat, k < ws.length → s.validAddr (origin + (k : Int) * Config.step)) →
    ∃ t, s.writeProgram origin (ws.flatMap wordDigits) = .next t ∧ s.LoadsWords t origin ws ∧ t.fault = none

/-- Malformed text never loads (R246, R285): a length that is no multiple of 16, or a character that is no binary digit.
The text is good words followed by a malformed chunk; if the good words' addresses are valid MalformedProgram is latched and
they stand written, and otherwise AddressOutOfRange is latched with the first invalid one and the words before it stand
written, nothing else changed either way. That chunks are checked in order and stay written is the spec's own reading (D23,
93 U6, log entry 21), that the load pointer does not wrap D17 (log entry 4), the latch D21 (log entry 20). -/
def Obligations.MalformedProgramTextFails : Prop :=
  ∀ (s : State) (origin : Int) (bits : List Char), s.fault = none → s.running = false →
    bits.length % 16 ≠ 0 ∨ (∃ c ∈ bits, c ≠ '0' ∧ c ≠ '1') →
    ∃ (ws : List Word) (bad : List Char) (t : State), bits = ws.flatMap wordDigits ++ bad ∧ malformedChunk bad ∧
      s.writeProgram origin bits = .next t ∧
      ((∀ k : Nat, k < ws.length → s.validAddr (origin + (k : Int) * Config.step)) →
        t.fault = some .malformedProgram ∧ s.LoadsWords t origin ws) ∧
      (∀ j : Nat, j < ws.length → s.firstInvalidWord origin j →
        t.fault = some (.addressOutOfRange (bitAddr (origin + (j : Int) * Config.step))) ∧
        s.LoadsWords t origin (ws.take j))

/-- `writeProgram` on well-formed text that does not fit (R242, R285): AddressOutOfRange is latched with the first invalid
address, exact and not wrapped (D17, log entry 4), the words before it stand written (D23, 93 U6, log entry 21), and nothing
else changes. The latch is D21 (log entry 20). -/
def Obligations.WriteProgramFailsAtTheFirstInvalidAddress : Prop :=
  ∀ (s : State) (origin : Int) (ws : List Word) (j : Nat), s.fault = none → s.running = false → j < ws.length →
    s.firstInvalidWord origin j →
    ∃ t, s.writeProgram origin (ws.flatMap wordDigits) = .next t ∧
      t.fault = some (.addressOutOfRange (bitAddr (origin + (j : Int) * Config.step))) ∧
      s.LoadsWords t origin (ws.take j)

/-- `writeProgram` after a failure and during a run is refused, whatever its text (93 U7, which says to refuse; the names are
the model's, log entry 28). -/
def Obligations.WriteProgramIsRefusedAfterAFailureOrDuringARun : Prop :=
  ∀ (s : State) (origin : Int) (bits : List Char),
    (s.fault ≠ none → s.writeProgram origin bits = .refused .hostCallAfterFailure) ∧
    (s.fault = none → s.running = true → s.writeProgram origin bits = .refused .hostCallWhileRunning)
end

