-- ==== Sys2Proof/Laws/Decode.lean ====
section
/-! SUPPORT. Fields of an encoded word, and how decoding reads them. -/

namespace Sys2Proof

@[simp] theorem opcodeField_encode (i : Instr) : opcodeField (encode i) = i.opcode.code := by
  unfold opcodeField encode
  exact BitVec.extractLsb'_append_eq_left

@[simp] theorem ofCode_code (op : Opcode) : Opcode.ofCode op.code = op := by
  cases op <;> rfl

/-- A slice that lies in the operand bits does not look at the opcode. -/
theorem extract_encode (i : Instr) {lo len : Nat} (h : lo + len ≤ 12) :
    (encode i).extractLsb' lo len = (operandBits i).extractLsb' lo len :=
  BitVec.extractLsb'_append_eq_of_add_le h

/-- A one-bit field of the operands does not look at the opcode. -/
theorem bitField_encode (i : Instr) {k : Nat} (h : k < 12) : bitField (encode i) k = (operandBits i).getLsbD k :=
  BitVec.getLsbD_append.trans (if_pos h)

theorem regBits_toNat (r : RegId) : (regBits r).toNat = r.val := by
  simp only [regBits, BitVec.toNat_ofNat]
  omega

/-- A register field that holds a register's bits names that register. -/
theorem regField_of_bits {w : Word} {lo : Nat} {r : RegId} (h : w.extractLsb' lo 3 = regBits r) :
    regField w lo = r :=
  Fin.ext (by simp [regField, h, regBits_toNat])

end Sys2Proof
end

