-- ==== Sys2Proof/Laws/State.lean ====
section
/-! SUPPORT. One lemma for each field of State under each named update, true by rfl, and what a register reads after
each update. -/

namespace Sys2Proof.Machine

variable (s : State)

/-! ### setReg -/
@[simp] theorem State.setReg_regs (i : RegId) (v : Word) : (s.setReg i v).regs = s.regs.set i v := rfl
@[simp] theorem State.setReg_pc (i : RegId) (v : Word) : (s.setReg i v).pc = s.pc := rfl
@[simp] theorem State.setReg_cond (i : RegId) (v : Word) : (s.setReg i v).cond = s.cond := rfl
@[simp] theorem State.setReg_running (i : RegId) (v : Word) : (s.setReg i v).running = s.running := rfl
@[simp] theorem State.setReg_fault (i : RegId) (v : Word) : (s.setReg i v).fault = s.fault := rfl
@[simp] theorem State.setReg_mem (i : RegId) (v : Word) : (s.setReg i v).mem = s.mem := rfl
@[simp] theorem State.setReg_cout (i : RegId) (v : Word) : (s.setReg i v).cout = s.cout := rfl
@[simp] theorem State.setReg_cin (i : RegId) (v : Word) : (s.setReg i v).cin = s.cin := rfl

/-! ### setPc -/
@[simp] theorem State.setPc_regs (n : Int) : (s.setPc n).regs = s.regs := rfl
@[simp] theorem State.setPc_pc (n : Int) : (s.setPc n).pc = trunc16 n := rfl
@[simp] theorem State.setPc_cond (n : Int) : (s.setPc n).cond = s.cond := rfl
@[simp] theorem State.setPc_running (n : Int) : (s.setPc n).running = s.running := rfl
@[simp] theorem State.setPc_fault (n : Int) : (s.setPc n).fault = s.fault := rfl
@[simp] theorem State.setPc_mem (n : Int) : (s.setPc n).mem = s.mem := rfl
@[simp] theorem State.setPc_cout (n : Int) : (s.setPc n).cout = s.cout := rfl
@[simp] theorem State.setPc_cin (n : Int) : (s.setPc n).cin = s.cin := rfl
@[simp] theorem State.setPc_reg (n : Int) (r : RegId) : (s.setPc n).reg r = s.reg r := rfl

/-! ### advancePc -/
@[simp] theorem State.advancePc_regs : (s.advancePc).regs = s.regs := rfl
@[simp] theorem State.advancePc_pc : (s.advancePc).pc = trunc16 (uval s.pc + Config.step) := rfl
@[simp] theorem State.advancePc_cond : (s.advancePc).cond = s.cond := rfl
@[simp] theorem State.advancePc_running : (s.advancePc).running = s.running := rfl
@[simp] theorem State.advancePc_fault : (s.advancePc).fault = s.fault := rfl
@[simp] theorem State.advancePc_mem : (s.advancePc).mem = s.mem := rfl
@[simp] theorem State.advancePc_cout : (s.advancePc).cout = s.cout := rfl
@[simp] theorem State.advancePc_cin : (s.advancePc).cin = s.cin := rfl
@[simp] theorem State.advancePc_reg (r : RegId) : (s.advancePc).reg r = s.reg r := rfl

/-! ### setMem -/
@[simp] theorem State.setMem_regs (m : Memory) : (s.setMem m).regs = s.regs := rfl
@[simp] theorem State.setMem_pc (m : Memory) : (s.setMem m).pc = s.pc := rfl
@[simp] theorem State.setMem_cond (m : Memory) : (s.setMem m).cond = s.cond := rfl
@[simp] theorem State.setMem_running (m : Memory) : (s.setMem m).running = s.running := rfl
@[simp] theorem State.setMem_fault (m : Memory) : (s.setMem m).fault = s.fault := rfl
@[simp] theorem State.setMem_mem (m : Memory) : (s.setMem m).mem = m := rfl
@[simp] theorem State.setMem_cout (m : Memory) : (s.setMem m).cout = s.cout := rfl
@[simp] theorem State.setMem_cin (m : Memory) : (s.setMem m).cin = s.cin := rfl
@[simp] theorem State.setMem_reg (m : Memory) (r : RegId) : (s.setMem m).reg r = s.reg r := rfl

/-! ### setCin -/
@[simp] theorem State.setCin_regs (l : List Text) : (s.setCin l).regs = s.regs := rfl
@[simp] theorem State.setCin_pc (l : List Text) : (s.setCin l).pc = s.pc := rfl
@[simp] theorem State.setCin_cond (l : List Text) : (s.setCin l).cond = s.cond := rfl
@[simp] theorem State.setCin_running (l : List Text) : (s.setCin l).running = s.running := rfl
@[simp] theorem State.setCin_fault (l : List Text) : (s.setCin l).fault = s.fault := rfl
@[simp] theorem State.setCin_mem (l : List Text) : (s.setCin l).mem = s.mem := rfl
@[simp] theorem State.setCin_cout (l : List Text) : (s.setCin l).cout = s.cout := rfl
@[simp] theorem State.setCin_cin (l : List Text) : (s.setCin l).cin = l := rfl
@[simp] theorem State.setCin_reg (l : List Text) (r : RegId) : (s.setCin l).reg r = s.reg r := rfl

/-! ### stopRun -/
@[simp] theorem State.stopRun_regs : (s.stopRun).regs = s.regs := rfl
@[simp] theorem State.stopRun_pc : (s.stopRun).pc = s.pc := rfl
@[simp] theorem State.stopRun_cond : (s.stopRun).cond = s.cond := rfl
@[simp] theorem State.stopRun_running : (s.stopRun).running = false := rfl
@[simp] theorem State.stopRun_fault : (s.stopRun).fault = s.fault := rfl
@[simp] theorem State.stopRun_mem : (s.stopRun).mem = s.mem := rfl
@[simp] theorem State.stopRun_cout : (s.stopRun).cout = s.cout := rfl
@[simp] theorem State.stopRun_cin : (s.stopRun).cin = s.cin := rfl
@[simp] theorem State.stopRun_reg (r : RegId) : (s.stopRun).reg r = s.reg r := rfl

/-! ### raise -/
@[simp] theorem State.raise_regs (k : Failure) : (s.raise k).regs = s.regs := rfl
@[simp] theorem State.raise_pc (k : Failure) : (s.raise k).pc = s.pc := rfl
@[simp] theorem State.raise_cond (k : Failure) : (s.raise k).cond = s.cond := rfl
@[simp] theorem State.raise_running (k : Failure) : (s.raise k).running = s.running := rfl
@[simp] theorem State.raise_fault (k : Failure) : (s.raise k).fault = some k := rfl
@[simp] theorem State.raise_mem (k : Failure) : (s.raise k).mem = s.mem := rfl
@[simp] theorem State.raise_cout (k : Failure) : (s.raise k).cout = s.cout := rfl
@[simp] theorem State.raise_cin (k : Failure) : (s.raise k).cin = s.cin := rfl
@[simp] theorem State.raise_reg (k : Failure) (r : RegId) : (s.raise k).reg r = s.reg r := rfl

/-! ### consoleWrite -/
@[simp] theorem State.consoleWrite_regs (t : Text) : (s.consoleWrite t).regs = s.regs := rfl
@[simp] theorem State.consoleWrite_pc (t : Text) : (s.consoleWrite t).pc = s.pc := rfl
@[simp] theorem State.consoleWrite_cond (t : Text) : (s.consoleWrite t).cond = s.cond := rfl
@[simp] theorem State.consoleWrite_running (t : Text) : (s.consoleWrite t).running = s.running := rfl
@[simp] theorem State.consoleWrite_fault (t : Text) : (s.consoleWrite t).fault = s.fault := rfl
@[simp] theorem State.consoleWrite_mem (t : Text) : (s.consoleWrite t).mem = s.mem := rfl
@[simp] theorem State.consoleWrite_cout (t : Text) : (s.consoleWrite t).cout = s.cout ++ t := rfl
@[simp] theorem State.consoleWrite_cin (t : Text) : (s.consoleWrite t).cin = s.cin := rfl
@[simp] theorem State.consoleWrite_reg (t : Text) (r : RegId) : (s.consoleWrite t).reg r = s.reg r := rfl

/-! ### setCC -/
@[simp] theorem State.setCC_regs (i : RegId) : (s.setCC i).regs = s.regs := rfl
@[simp] theorem State.setCC_pc (i : RegId) : (s.setCC i).pc = s.pc := rfl
@[simp] theorem State.setCC_cond (i : RegId) : (s.setCC i).cond = flagOf (s.reg i) := rfl
@[simp] theorem State.setCC_running (i : RegId) : (s.setCC i).running = s.running := rfl
@[simp] theorem State.setCC_fault (i : RegId) : (s.setCC i).fault = s.fault := rfl
@[simp] theorem State.setCC_mem (i : RegId) : (s.setCC i).mem = s.mem := rfl
@[simp] theorem State.setCC_cout (i : RegId) : (s.setCC i).cout = s.cout := rfl
@[simp] theorem State.setCC_cin (i : RegId) : (s.setCC i).cin = s.cin := rfl
@[simp] theorem State.setCC_reg (i : RegId) (r : RegId) : (s.setCC i).reg r = s.reg r := rfl

/-! ### startRun -/
@[simp] theorem State.startRun_regs : (s.startRun).regs = s.regs := rfl
@[simp] theorem State.startRun_pc : (s.startRun).pc = Config.start := rfl
@[simp] theorem State.startRun_cond : (s.startRun).cond = s.cond := rfl
@[simp] theorem State.startRun_running : (s.startRun).running = true := rfl
@[simp] theorem State.startRun_fault : (s.startRun).fault = s.fault := rfl
@[simp] theorem State.startRun_mem : (s.startRun).mem = s.mem := rfl
@[simp] theorem State.startRun_cout : (s.startRun).cout = s.cout := rfl
@[simp] theorem State.startRun_cin : (s.startRun).cin = s.cin := rfl
@[simp] theorem State.startRun_reg (r : RegId) : (s.startRun).reg r = s.reg r := rfl

/-! ### supplyLine -/
@[simp] theorem State.supplyLine_regs (l : Text) : (s.supplyLine l).regs = s.regs := rfl
@[simp] theorem State.supplyLine_pc (l : Text) : (s.supplyLine l).pc = s.pc := rfl
@[simp] theorem State.supplyLine_cond (l : Text) : (s.supplyLine l).cond = s.cond := rfl
@[simp] theorem State.supplyLine_running (l : Text) : (s.supplyLine l).running = s.running := rfl
@[simp] theorem State.supplyLine_fault (l : Text) : (s.supplyLine l).fault = s.fault := rfl
@[simp] theorem State.supplyLine_mem (l : Text) : (s.supplyLine l).mem = s.mem := rfl
@[simp] theorem State.supplyLine_cout (l : Text) : (s.supplyLine l).cout = s.cout := rfl
@[simp] theorem State.supplyLine_cin (l : Text) : (s.supplyLine l).cin = s.cin ++ [l] := rfl
@[simp] theorem State.supplyLine_reg (l : Text) (r : RegId) : (s.supplyLine l).reg r = s.reg r := rfl

/-! ### Registers -/

@[simp] theorem State.reg_setReg_self (i : RegId) (v : Word) : (s.setReg i v).reg i = v := by
  simp [State.reg]

theorem State.reg_setReg_of_ne {i r : RegId} (h : r ≠ i) (v : Word) : (s.setReg i v).reg r = s.reg r := by
  have hne : i.val ≠ r.val := fun e => h (Fin.ext e.symm)
  simp [State.reg, hne]

@[simp] theorem State.constructed_reg (n : Nat) (r : RegId) : (State.constructed n).reg r = 0 := by
  simp [State.reg, State.constructed]

/-! ### writeResult: DR, COND and nothing else -/

@[simp] theorem State.writeResult_reg_self (dr : RegId) (v : Word) : (s.writeResult dr v).reg dr = v := by
  simp [State.writeResult]

theorem State.writeResult_reg_of_ne {dr r : RegId} (h : r ≠ dr) (v : Word) : (s.writeResult dr v).reg r = s.reg r := by
  simp [State.writeResult, State.reg_setReg_of_ne s h]

@[simp] theorem State.writeResult_cond (dr : RegId) (v : Word) : (s.writeResult dr v).cond = flagOf v := by
  simp [State.writeResult]
@[simp] theorem State.writeResult_pc (dr : RegId) (v : Word) : (s.writeResult dr v).pc = s.pc := rfl
@[simp] theorem State.writeResult_running (dr : RegId) (v : Word) : (s.writeResult dr v).running = s.running := rfl
@[simp] theorem State.writeResult_fault (dr : RegId) (v : Word) : (s.writeResult dr v).fault = s.fault := rfl
@[simp] theorem State.writeResult_mem (dr : RegId) (v : Word) : (s.writeResult dr v).mem = s.mem := rfl
@[simp] theorem State.writeResult_cout (dr : RegId) (v : Word) : (s.writeResult dr v).cout = s.cout := rfl
@[simp] theorem State.writeResult_cin (dr : RegId) (v : Word) : (s.writeResult dr v).cin = s.cin := rfl

/-! ### Reading memory looks at memory alone -/

theorem State.memRead_of_mem_eq {s t : State} (h : t.mem = s.mem) (a : Int) : t.memRead a = s.memRead a := by
  simp [State.memRead, h]

theorem State.memWrite_of_mem_eq {s t : State} (h : t.mem = s.mem) (a : Int) (v : Word) :
    t.memWrite a v = s.memWrite a v := by
  simp [State.memWrite, h]

/-! ### trunc16 -/

@[simp] theorem trunc16_uval (v : Word) : trunc16 (uval v) = v := by
  simp [trunc16]

end Sys2Proof.Machine
end

