-- ==== Sys2Proof/Laws/Memory.lean ====
section
/-! SUPPORT. The cells as data: read after write, other cells left alone, the canonical form kept, and equal memories are
equal data. -/

namespace Sys2Proof.Machine

/-! ### The three list operations -/

theorem lookupCell_dropCell_self (k : Nat) (l : List (Nat × CellValue)) :
    lookupCell k (dropCell k l) = unlistedCell := by
  induction l with
  | nil => rfl
  | cons e rest ih =>
    by_cases h : e.1 = k
    · simpa [dropCell, h] using ih
    · simpa [dropCell, lookupCell, h] using ih

theorem lookupCell_dropCell_of_ne {j k : Nat} (h : j ≠ k) (l : List (Nat × CellValue)) :
    lookupCell j (dropCell k l) = lookupCell j l := by
  induction l with
  | nil => rfl
  | cons e rest ih =>
    by_cases hk : e.1 = k
    · have hj : e.1 ≠ j := fun e' => h (e'.symm.trans hk)
      have : lookupCell j (e :: rest) = lookupCell j rest := by simp [lookupCell, hj]
      rw [this, ← ih]
      simp [dropCell, hk]
    · have hd : dropCell k (e :: rest) = e :: dropCell k rest := by simp [dropCell, hk]
      rw [hd]
      simp [lookupCell, ih]

theorem lookupCell_placeCell_self (k : Nat) (v : CellValue) (l : List (Nat × CellValue))
    (h : ∀ e ∈ l, e.1 ≠ k) : lookupCell k (placeCell k v l) = v := by
  induction l with
  | nil => simp [placeCell, lookupCell]
  | cons e rest ih =>
    have he := h e (by simp)
    have hr := ih (fun x hx => h x (by simp [hx]))
    by_cases hk : k < e.1 <;> simp [placeCell, hk, lookupCell, he, hr]

theorem lookupCell_placeCell_of_ne {j k : Nat} (h : j ≠ k) (v : CellValue) (l : List (Nat × CellValue)) :
    lookupCell j (placeCell k v l) = lookupCell j l := by
  induction l with
  | nil => simp [placeCell, lookupCell, Ne.symm h]
  | cons e rest ih => by_cases hk : k < e.1 <;> simp [placeCell, hk, lookupCell, ih, Ne.symm h]

theorem dropCell_no_key (k : Nat) (l : List (Nat × CellValue)) : ∀ e ∈ dropCell k l, e.1 ≠ k := by
  simp [dropCell]

/-! ### setCell -/

@[simp] theorem Memory.setCell_cellCount (m : Memory) (k : Nat) (v : CellValue) :
    (m.setCell k v).cellCount = m.cellCount := rfl

@[simp] theorem Memory.cellAt_setCell_self (m : Memory) (k : Nat) (v : CellValue) :
    (m.setCell k v).cellAt k = v := by
  by_cases hv : v = unlistedCell
  · simp [Memory.cellAt, Memory.setCell, hv, lookupCell_dropCell_self]
  · simp [Memory.cellAt, Memory.setCell, hv, lookupCell_placeCell_self k v _ (dropCell_no_key k _)]

theorem Memory.cellAt_setCell_of_ne {j k : Nat} (h : j ≠ k) (m : Memory) (v : CellValue) :
    (m.setCell k v).cellAt j = m.cellAt j := by
  by_cases hv : v = unlistedCell <;>
    simp [Memory.cellAt, Memory.setCell, hv, lookupCell_placeCell_of_ne h, lookupCell_dropCell_of_ne h]

/-! ### The canonical form -/

theorem mem_placeCell {k : Nat} {v : CellValue} {l : List (Nat × CellValue)} {e : Nat × CellValue} :
    e ∈ placeCell k v l ↔ e = (k, v) ∨ e ∈ l := by
  induction l with
  | nil => simp [placeCell]
  | cons x rest ih =>
    by_cases hk : k < x.1
    · simp [placeCell, hk]
    · simp only [placeCell, hk, if_false, List.mem_cons, ih]
      tauto

theorem placeCell_rising {k : Nat} {v : CellValue} {l : List (Nat × CellValue)}
    (hl : l.Pairwise (fun a b => a.1 < b.1)) (hk : ∀ e ∈ l, e.1 ≠ k) :
    (placeCell k v l).Pairwise (fun a b => a.1 < b.1) := by
  induction l with
  | nil => simp [placeCell]
  | cons x rest ih =>
    obtain ⟨hx, hrest⟩ := List.pairwise_cons.mp hl
    by_cases hlt : k < x.1
    · simp only [placeCell, hlt, if_true]
      refine List.pairwise_cons.mpr ⟨fun e he => ?_, hl⟩
      obtain rfl | he := List.mem_cons.mp he
      · exact hlt
      · exact lt_trans hlt (hx e he)
    · simp only [placeCell, hlt, if_false]
      refine List.pairwise_cons.mpr ⟨fun e he => ?_, ih hrest (fun e he => hk e (by simp [he]))⟩
      obtain rfl | he := mem_placeCell.mp he
      · have := hk x (by simp)
        show x.1 < k
        omega
      · exact hx e he

theorem Memory.setCell_wf {m : Memory} (h : m.wf) {k : Nat} (hk : k < m.cellCount) (v : CellValue) :
    (m.setCell k v).wf := by
  have hdrop : (dropCell k m.cells).Pairwise (fun a b => a.1 < b.1) := h.1.filter _
  have hmem : ∀ e ∈ dropCell k m.cells, e.1 < m.cellCount ∧ e.2 ≠ unlistedCell :=
    fun e he => h.2 e (List.mem_of_mem_filter he)
  by_cases hv : v = unlistedCell
  · simpa [Memory.wf, Memory.setCell, hv] using ⟨hdrop, by simpa using hmem⟩
  · refine ⟨?_, ?_⟩
    · simpa [Memory.setCell, hv] using placeCell_rising hdrop (dropCell_no_key k _)
    · intro e he
      simp only [Memory.setCell, hv, if_false] at he
      obtain rfl | he := mem_placeCell.mp he
      · exact ⟨hk, hv⟩
      · exact hmem e he

theorem Memory.constructed_wf (n : Nat) : ({ cellCount := n, cells := [] } : Memory).wf := by
  simp [Memory.wf]

end Sys2Proof.Machine
end

