-- ==== Sys2Proof/Laws/Engine.lean ====
section
/-! SUPPORT. What an engine access can answer, the mask bit by bit, and the canonical form kept by a write. -/

namespace Sys2Proof.Machine

/-- A mask bit by bit, least significant bit first: 0 exactly on the cell-style range `[lo, hi)` (20_memory.md R63). -/
theorem generateMask_getLsbD (width lo hi : Nat) (h : lo ≤ hi ∧ hi ≤ width) (k : Nat) (hk : k < width) :
    (generateMask width lo hi h).getLsbD k = !(decide (width - hi ≤ k ∧ k < width - lo)) := by
  obtain ⟨h1, h2⟩ := h
  by_cases ha : lo + k < width <;> by_cases hb : k < width - hi <;>
    simp [generateMask, hk, ha, hb] <;> omega

/-- A cleared range filled again, bit by bit: the filling on the range, the cell outside it (R67). -/
theorem fill_getLsbD (c x : CellValue) (lo hi : Nat) (h : lo ≤ hi ∧ hi ≤ 64)
    (hx : ∀ k, k < 64 → ¬(64 - hi ≤ k ∧ k < 64 - lo) → x.getLsbD k = false) (k : Nat) (hk : k < 64) :
    ((c &&& generateMask 64 lo hi h) + x).getLsbD k =
      if 64 - hi ≤ k ∧ k < 64 - lo then x.getLsbD k else c.getLsbD k := by
  have hor : (c &&& generateMask 64 lo hi h) &&& x = 0#64 := by
    apply BitVec.eq_of_getLsbD_eq
    intro j hj
    rw [BitVec.getLsbD_and, BitVec.getLsbD_and, generateMask_getLsbD _ _ _ _ _ hj]
    by_cases hr : 64 - hi ≤ j ∧ j < 64 - lo
    · simp [hr]
    · simp [hx j hj hr]
  rw [BitVec.add_eq_or_of_and_eq_zero _ _ hor, BitVec.getLsbD_or, BitVec.getLsbD_and,
    generateMask_getLsbD _ _ _ _ _ hk]
  by_cases hr : 64 - hi ≤ k ∧ k < 64 - lo
  · simp [hr]
  · simp only [hx k hk hr, hr, decide_false, Bool.not_false, Bool.and_true, Bool.or_false, if_false]

/-- The arena after one cell is written. -/
theorem Memory.bit_setCell (m : Memory) (k : Nat) (v : CellValue) (g : Nat) :
    (m.setCell k v).bit g = if g / 64 = k then v.getLsbD (63 - g % 64) else m.bit g := by
  unfold Memory.bit
  by_cases h : g / 64 = k
  · subst h
    simp
  · simp [h, Memory.cellAt_setCell_of_ne h]

/-- Everything a read can answer. -/
theorem engineRead_cases {I : Nat} {hI : 2 ≤ I ∧ I ≤ 64} {m : Memory} {b : Int} :
    (m.accepts I b ∧ engineRead I hI m b = .ok (readBits I hI m b.toNat)) ∨
      (¬m.accepts I b ∧ engineRead I hI m b = .error (.addressOutOfRange b)) := by
  by_cases h : m.accepts I b
  · exact .inl ⟨h, if_pos h⟩
  · exact .inr ⟨h, if_neg h⟩

/-- Everything a write can answer. -/
theorem engineWrite_cases {I : Nat} {hI : 2 ≤ I ∧ I ≤ 64} {m : Memory} {b : Int} {v : BitVec I} :
    (m.accepts I b ∧ engineWrite I hI m b v = .ok (writeBits I hI m b.toNat v)) ∨
      (¬m.accepts I b ∧ engineWrite I hI m b v = .error (.addressOutOfRange b)) := by
  by_cases h : m.accepts I b
  · exact .inl ⟨h, if_pos h⟩
  · exact .inr ⟨h, if_neg h⟩

@[simp] theorem writeBits_cellCount {I : Nat} (hI : 2 ≤ I ∧ I ≤ 64) (m : Memory) (b : Nat) (v : BitVec I) :
    (writeBits I hI m b v).cellCount = m.cellCount := by
  unfold writeBits
  dsimp only
  split <;> simp

/-- A write to an accepted address keeps the canonical form: the cells it touches exist (R66). -/
theorem writeBits_wf {I : Nat} (hI : 2 ≤ I ∧ I ≤ 64) {m : Memory} (hm : m.wf) {b : Nat}
    (hb : (b : Int) ≤ m.maxAddress I) (v : BitVec I) : (writeBits I hI m b v).wf := by
  simp only [Memory.maxAddress] at hb
  have hhead : b / 64 < m.cellCount := by omega
  unfold writeBits
  dsimp only
  split
  · exact Memory.setCell_wf hm hhead _
  · rename_i hs
    exact Memory.setCell_wf (Memory.setCell_wf hm hhead _) (by simp only [Memory.setCell_cellCount]; omega) _

theorem engineWrite_ok_wf {I : Nat} {hI : 2 ≤ I ∧ I ≤ 64} {m m' : Memory} {b : Int} {v : BitVec I} (hm : m.wf)
    (h : engineWrite I hI m b v = .ok m') : m'.wf ∧ m'.cellCount = m.cellCount := by
  obtain ⟨ha, he⟩ | ⟨_, he⟩ := engineWrite_cases (hI := hI) (m := m) (b := b) (v := v)
  · rw [he] at h
    obtain rfl := Except.ok.inj h
    exact ⟨writeBits_wf hI hm (by have := ha.1; have := ha.2; omega) v, writeBits_cellCount hI m _ v⟩
  · rw [he] at h
    cases h

end Sys2Proof.Machine
end

