-- ==== Sys2Proof/Laws/Ops.lean ====
section
/-! SUPPORT. For each shared operation, everything it can do, said once. -/

namespace Sys2Proof.Machine

variable {s t : State}

/-- A word read succeeds exactly on a valid address, and its failure names the bit address (00_scope.md R14). -/
theorem State.memRead_cases (s : State) (a : Int) :
    (s.validAddr a ∧ ∃ v, s.memRead a = .ok v) ∨
      (¬s.validAddr a ∧ s.memRead a = .error (.addressOutOfRange (bitAddr a))) := by
  obtain ⟨h, he⟩ | h := engineRead_cases (hI := Config.instructionWidth_valid) (m := s.mem) (b := bitAddr a)
  · exact .inl ⟨h, _, he⟩
  · exact .inr h

/-- A word write succeeds exactly on a valid address. -/
theorem State.memWrite_cases (s : State) (a : Int) (v : Word) :
    (s.validAddr a ∧ ∃ m, s.memWrite a v = .ok m) ∨
      (¬s.validAddr a ∧ s.memWrite a v = .error (.addressOutOfRange (bitAddr a))) := by
  obtain ⟨h, he⟩ | h :=
    engineWrite_cases (hI := Config.instructionWidth_valid) (m := s.mem) (b := bitAddr a) (v := v)
  · exact .inl ⟨h, _, he⟩
  · exact .inr h

/-- A store changes memory by the write, or raises the failure with memory unchanged. -/
theorem State.storeWord_cases (s : State) (a : Int) (v : Word) :
    (s.validAddr a ∧ ∃ m, s.memWrite a v = .ok m ∧ s.storeWord a v = s.setMem m) ∨
      (¬s.validAddr a ∧ s.storeWord a v = s.raise (.addressOutOfRange (bitAddr a))) := by
  obtain ⟨h, m, he⟩ | ⟨h, he⟩ := s.memWrite_cases a v
  · exact .inl ⟨h, m, he, by simp [State.storeWord, he]⟩
  · exact .inr ⟨h, by simp [State.storeWord, he]⟩

/-- A read through a pointer word: both reads succeed, or the first failure is reported. -/
theorem State.memReadIndirect_cases (s : State) (a : Int) :
    (∃ p v, s.memRead a = .ok p ∧ s.memRead (uval p) = .ok v ∧ s.memReadIndirect a = .ok v) ∨
      (∃ p, s.memRead a = .ok p ∧ ¬s.validAddr (uval p) ∧
        s.memReadIndirect a = .error (.addressOutOfRange (bitAddr (uval p)))) ∨
      (¬s.validAddr a ∧ s.memReadIndirect a = .error (.addressOutOfRange (bitAddr a))) := by
  obtain ⟨_, p, hp⟩ | ⟨h, he⟩ := s.memRead_cases a
  · obtain ⟨_, v, hv⟩ | ⟨h2, he⟩ := s.memRead_cases (uval p)
    · exact .inl ⟨p, v, hp, hv, by simp [State.memReadIndirect, hp, hv]⟩
    · exact .inr (.inl ⟨p, hp, h2, by simp [State.memReadIndirect, hp, he]⟩)
  · exact .inr (.inr ⟨h, by simp [State.memReadIndirect, he]⟩)

/-- A load ends in its result, or in the failure of its read. -/
theorem State.loadResult_cases (s : State) (dr : RegId) (r : Except Failure Word) :
    (∃ v, r = .ok v ∧ s.loadResult dr r = s.writeResult dr v) ∨
      (∃ k, r = .error k ∧ s.loadResult dr r = s.raise k) := by
  cases r with
  | ok v => exact .inl ⟨v, rfl, rfl⟩
  | error k => exact .inr ⟨k, rfl, rfl⟩

/-! ### Addresses and scans -/

@[simp] theorem config_step : Config.step = 1 := rfl

theorem bitAddr_eq (a : Int) : bitAddr a = 16 * a := by
  simp only [bitAddr, Config.unit]
  omega

/-- An address is valid exactly below four words a cell (20_memory.md R79). -/
theorem State.validAddr_iff (s : State) (a : Int) :
    s.validAddr a ↔ 0 ≤ a ∧ a ≤ 4 * (s.mem.cellCount : Int) - 1 := by
  simp only [State.validAddr, Memory.accepts, Memory.maxAddress, bitAddr_eq]
  omega

/-- One word of a scan. -/
theorem State.scanWords_succ (s : State) (fuel : Nat) (a : Int) :
    s.scanWords (fuel + 1) a =
      match s.memRead a with
      | .error k => .error k
      | .ok w =>
        if w = 0 then .ok []
        else
          match s.scanWords fuel (a + Config.step) with
          | .error k => .error k
          | .ok ws => .ok (w :: ws) := rfl

/-- A scan ends at a zero word. -/
theorem State.scanWords_terminator {fuel : Nat} {a : Int} (h : s.memRead a = .ok 0) :
    s.scanWords (fuel + 1) a = .ok [] := by
  rw [State.scanWords_succ, h]
  exact if_pos rfl

/-- A scan goes on past a word that is not zero. -/
theorem State.scanWords_word {fuel : Nat} {a : Int} {w : Word} (h : s.memRead a = .ok w) (hw : w ≠ 0) :
    s.scanWords (fuel + 1) a = (s.scanWords fuel (a + Config.step)).map (w :: ·) := by
  rw [State.scanWords_succ, h]
  cases hs : s.scanWords fuel (a + Config.step) <;> exact if_neg hw

/-- A scan that starts outside memory ends there. -/
theorem State.scanWords_outside {fuel : Nat} {a : Int} (h : ¬s.validAddr a) :
    s.scanWords fuel a = .error (.addressOutOfRange (bitAddr a)) := by
  cases fuel with
  | zero => rfl
  | succ n =>
    obtain ⟨hv, _⟩ | ⟨_, he⟩ := s.memRead_cases a
    · exact absurd hv h
    · rw [State.scanWords_succ, he]

/-- A scan is bounded by memory, not by its fuel: one read more changes nothing once the fuel reaches past the last
word. -/
theorem State.scanWords_fuel (s : State) {fuel : Nat} {a : Int} (h0 : 0 ≤ a)
    (h : 4 * (s.mem.cellCount : Int) ≤ a + fuel) : s.scanWords (fuel + 1) a = s.scanWords fuel a := by
  induction fuel generalizing a with
  | zero =>
    obtain ⟨hv, _⟩ | ⟨_, he⟩ := s.memRead_cases a
    · rw [State.validAddr_iff] at hv
      omega
    · simp [State.scanWords, he]
  | succ n ih =>
    have hn := ih (a := a + Config.step) (by simp only [config_step]; omega)
      (by simp only [config_step]; push_cast at h; omega)
    rw [State.scanWords_succ s (n + 1) a, State.scanWords_succ s n a, hn]

/-- The only failure a scan ends in is a read outside memory. -/
theorem State.scanWords_error {fuel : Nat} {a : Int} {k : Failure} (h0 : 0 ≤ a)
    (hf : 4 * (s.mem.cellCount : Int) ≤ a + fuel) (h : s.scanWords fuel a = .error k) :
    ∃ b, ¬s.validAddr b ∧ k = .addressOutOfRange (bitAddr b) := by
  induction fuel generalizing a with
  | zero =>
    simp only [State.scanWords] at h
    refine ⟨a, ?_, (Except.error.inj h).symm⟩
    rw [State.validAddr_iff]
    omega
  | succ n ih =>
    simp only [State.scanWords] at h
    obtain ⟨_, w, hw⟩ | ⟨hv, hw⟩ := s.memRead_cases a
    · rw [hw] at h
      by_cases hz : w = 0
      · simp [hz] at h
      · simp only [hz, if_false] at h
        cases hs : s.scanWords n (a + Config.step) with
        | error k' =>
          rw [hs] at h
          obtain rfl := Except.error.inj h
          exact ih (by simp only [config_step]; omega) (by simp only [config_step]; push_cast at hf ⊢; omega) hs
        | ok ws =>
          rw [hs] at h
          cases h
    · rw [hw] at h
      exact ⟨a, hv, (Except.error.inj h).symm⟩

theorem State.stringAt_error {a : Word} {k : Failure} (h : s.stringAt (uval a) = .error k) :
    ∃ b, ¬s.validAddr b ∧ k = .addressOutOfRange (bitAddr b) :=
  State.scanWords_error (Int.natCast_nonneg _) (by push_cast; omega) h

/-! ### The load loop, chunk by chunk -/

/-- A finished text leaves the state. -/
@[simp] theorem State.writeChunks_nil (fuel : Nat) (s : State) (a : Int) : State.writeChunks fuel s a [] = s := by
  cases fuel <;> simp [State.writeChunks]

/-- A malformed chunk ends the load. -/
theorem State.writeChunks_malformed {fuel : Nat} {a : Int} {bits : List Char} (hb : bits ≠ [])
    (hc : chunkWord (bits.take 16) = none) :
    State.writeChunks (fuel + 1) s a bits = s.raise .malformedProgram := by
  simp only [State.writeChunks, if_neg hb, hc]

/-- A word that does not fit ends the load. -/
theorem State.writeChunks_outside {fuel : Nat} {a : Int} {bits : List Char} {v : Word} (hb : bits ≠ [])
    (hc : chunkWord (bits.take 16) = some v) (ha : ¬s.validAddr a) :
    State.writeChunks (fuel + 1) s a bits = s.raise (.addressOutOfRange (bitAddr a)) := by
  obtain ⟨hv, _⟩ | ⟨_, he⟩ := s.memWrite_cases a v
  · exact absurd hv ha
  · simp only [State.writeChunks, if_neg hb, hc, he]

/-- A word that fits is written, and the load goes on. -/
theorem State.writeChunks_word {fuel : Nat} {a : Int} {bits : List Char} {v : Word} {m : Memory} (hb : bits ≠ [])
    (hc : chunkWord (bits.take 16) = some v) (hm : s.memWrite a v = .ok m) :
    State.writeChunks (fuel + 1) s a bits =
      State.writeChunks fuel (s.setMem m) (a + Config.step) (bits.drop 16) := by
  simp only [State.writeChunks, if_neg hb, hc, hm]

/-- What a call of `writeProgram` answers. -/
theorem State.writeProgram_cases (s : State) (origin : Int) (bits : List Char) :
    (s.fault ≠ none ∧ s.writeProgram origin bits = .refused .hostCallAfterFailure) ∨
      (s.fault = none ∧ s.running = true ∧ s.writeProgram origin bits = .refused .hostCallWhileRunning) ∨
      (s.fault = none ∧ s.running = false ∧
        s.writeProgram origin bits = .next (State.writeChunks bits.length s origin bits)) := by
  unfold State.writeProgram
  by_cases hf : s.fault = none
  · cases hr : s.running <;> simp [hf]
  · simp [hf]

/-! ### Flags -/

/-- A classification is one of the three flag codes (10_state.md R41). -/
theorem flagOf_cases (v : Word) : flagOf v = Config.flagP ∨ flagOf v = Config.flagZ ∨ flagOf v = Config.flagN := by
  unfold flagOf
  split
  · exact .inr (.inl rfl)
  · split
    · exact .inl rfl
    · exact .inr (.inr rfl)

/-! ### The canonical form of memory, operation by operation -/

theorem State.memWrite_wf {a : Int} {v : Word} {m : Memory} (h : s.mem.wf) (hw : s.memWrite a v = .ok m) : m.wf :=
  (engineWrite_ok_wf h hw).1

theorem State.storeWord_wf (h : s.mem.wf) (a : Int) (v : Word) : (s.storeWord a v).mem.wf := by
  obtain ⟨_, m, hw, he⟩ | ⟨_, he⟩ := s.storeWord_cases a v
  · rw [he]
    exact State.memWrite_wf h hw
  · rw [he]
    exact h

/-- A store changes memory and the latch, nothing else. -/
theorem State.storeWord_frame (s : State) (a : Int) (v : Word) :
    (s.storeWord a v).regs = s.regs ∧ (s.storeWord a v).pc = s.pc ∧ (s.storeWord a v).cond = s.cond ∧
      (s.storeWord a v).running = s.running ∧ (s.storeWord a v).cout = s.cout ∧ (s.storeWord a v).cin = s.cin := by
  obtain ⟨_, m, _, he⟩ | ⟨_, he⟩ := s.storeWord_cases a v <;> simp [he]

theorem State.writeChunks_wf (fuel : Nat) (a : Int) (bits : List Char) (h : s.mem.wf) :
    (State.writeChunks fuel s a bits).mem.wf := by
  induction fuel generalizing s a bits with
  | zero => exact h
  | succ n ih =>
    simp only [State.writeChunks]
    split
    · exact h
    · split
      · exact h
      · rename_i v _
        obtain ⟨_, m, hw⟩ | ⟨_, hw⟩ := s.memWrite_cases a v
        · simp only [hw]
          exact ih _ _ (State.memWrite_wf h hw)
        · simp only [hw]
          exact h

end Sys2Proof.Machine
end

