-- ==== Sys2Proof/Laws/Exec.lean ====
section
/-! SUPPORT. What an instruction can do, said once: every next state `exec` answers is one of these effects. -/

namespace Sys2Proof.Machine

/-- Whether an instruction accesses memory after its fetch. -/
def accessesMemory : Instr → Bool
  | .br _ _ _ _ => false
  | .add _ _ _ => false
  | .addi _ _ _ => false
  | .ld _ _ => true
  | .st _ _ => true
  | .jsr _ => false
  | .jsrr _ => false
  | .and _ _ _ => false
  | .andi _ _ _ => false
  | .ldr _ _ _ => true
  | .str _ _ _ => true
  | .rti => false
  | .not _ _ => false
  | .ldi _ _ => true
  | .sti _ _ => true
  | .jmp _ => false
  | .res => false
  | .lea _ _ => false
  | .getc => false
  | .out => false
  | .puts => true
  | .in_ => false
  | .putsp => true
  | .halt => false
  | .trap _ => false

/-- The effects of the instructions on a state. -/
inductive Effect (s : State) : Instr → State → Prop where
  /-- A value goes to the flag destination, with the flags. -/
  | result {i : Instr} {dr : RegId} (v : Word) (h : flagDest i = some dr) : Effect s i (s.writeResult dr v)
  /-- An access outside memory: nothing but the latch changes. -/
  | outOfRange {i : Instr} {a : Int} (hi : accessesMemory i = true) (h : ¬s.validAddr a) :
    Effect s i (s.raise (.addressOutOfRange (bitAddr a)))
  | st {sr : RegId} {off : BitVec 9} {m : Memory} (h : s.memWrite (s.pcRelative off) (s.reg sr) = .ok m) :
    Effect s (.st sr off) (s.setMem m)
  | sti {sr : RegId} {off : BitVec 9} {p : Word} {m : Memory} (hp : s.memRead (s.pcRelative off) = .ok p)
    (h : s.memWrite (uval p) (s.reg sr) = .ok m) : Effect s (.sti sr off) (s.setMem m)
  | str {sr base : RegId} {off : BitVec 6} {m : Memory} (h : s.memWrite (s.baseOffset base off) (s.reg sr) = .ok m) :
    Effect s (.str sr base off) (s.setMem m)
  | taken {n z p : Bool} {off : BitVec 9} (h : branchTaken n z p s.cond = true) :
    Effect s (.br n z p off) (s.setPc (s.pcRelative off))
  | notTaken {n z p : Bool} {off : BitVec 9} (h : branchTaken n z p s.cond = false) : Effect s (.br n z p off) s
  | jmp {base : RegId} : Effect s (.jmp base) (s.setPc (uval (s.reg base)))
  | jsr {off : BitVec 11} : Effect s (.jsr off) ((s.setReg 7 s.pc).setPc (s.pcRelative11 off))
  | jsrr {base : RegId} : Effect s (.jsrr base) ((s.setReg 7 s.pc).setPc (uval ((s.setReg 7 s.pc).reg base)))
  | rti : Effect s .rti s
  | res : Effect s .res s
  | getc {line : Text} {rest : List Text} (h : s.cin = line :: rest) :
    Effect s .getc ((s.setCin rest).setReg 0 (line.headD 0))
  | out : Effect s .out (s.consoleWrite [zext ((s.reg 0).extractLsb' 0 8)])
  | puts {ws : List Word} (h : s.stringAt (uval (s.reg 0)) = .ok ws) : Effect s .puts (s.consoleWrite ws)
  | in_ {c : Character} {cs : Text} {rest : List Text} (h : s.cin = (c :: cs) :: rest) :
    Effect s .in_ (((s.consoleWrite Config.inPrompt).setCin rest).setReg 0 c)
  | inEmpty {rest : List Text} (h : s.cin = [] :: rest) :
    Effect s .in_ (((s.consoleWrite Config.inPrompt).setCin rest).raise .unspecifiedInEmptyLine)
  | putsp {ws : List Word} (h : s.stringAt (uval (s.reg 0)) = .ok ws) :
    Effect s .putsp (s.consoleWrite (ws.flatMap unpackChars))
  | halt : Effect s .halt s.stopRun
  | trap {v : BitVec 8} : Effect s (.trap v) (s.raise (.unknownTrapCode v))

variable {s t : State}

/-- The end of a load is a result or a failed read. -/
theorem Effect.load {i : Instr} {dr : RegId} (hi : accessesMemory i = true) (hd : flagDest i = some dr)
    {r : Except Failure Word} (hr : ∀ k, r = .error k → ∃ a, ¬s.validAddr a ∧ k = .addressOutOfRange (bitAddr a)) :
    Effect s i (s.loadResult dr r) := by
  cases r with
  | ok v => exact .result v hd
  | error k =>
    obtain ⟨a, ha, rfl⟩ := hr k rfl
    exact .outOfRange hi ha

theorem State.memRead_error {a : Int} {k : Failure} (h : s.memRead a = .error k) :
    ∃ b, ¬s.validAddr b ∧ k = .addressOutOfRange (bitAddr b) := by
  obtain ⟨_, v, hv⟩ | ⟨ha, he⟩ := s.memRead_cases a
  · rw [hv] at h
    cases h
  · rw [he] at h
    exact ⟨a, ha, (Except.error.inj h).symm⟩

theorem State.memReadIndirect_error {a : Int} {k : Failure} (h : s.memReadIndirect a = .error k) :
    ∃ b, ¬s.validAddr b ∧ k = .addressOutOfRange (bitAddr b) := by
  unfold State.memReadIndirect at h
  split at h
  · exact State.memRead_error h
  · rename_i k' hk
    obtain rfl := Except.error.inj h
    exact State.memRead_error hk

/-- Every next state is an effect of its instruction. -/
theorem exec_effect {i : Instr} (h : exec i s = .next t) : Effect s i t := by
  cases i with
  | br n z p off =>
    obtain rfl := Host.Outcome.next.inj h
    split
    · exact .taken ‹_›
    · exact .notTaken (by simpa using ‹¬branchTaken n z p s.cond = true›)
  | add dr sr1 sr2 => obtain rfl := Host.Outcome.next.inj h; exact .result _ rfl
  | addi dr sr1 imm => obtain rfl := Host.Outcome.next.inj h; exact .result _ rfl
  | and dr sr1 sr2 => obtain rfl := Host.Outcome.next.inj h; exact .result _ rfl
  | andi dr sr1 imm => obtain rfl := Host.Outcome.next.inj h; exact .result _ rfl
  | not dr sr => obtain rfl := Host.Outcome.next.inj h; exact .result _ rfl
  | lea dr off => obtain rfl := Host.Outcome.next.inj h; exact .result _ rfl
  | ld dr off => obtain rfl := Host.Outcome.next.inj h; exact .load rfl rfl fun _ => State.memRead_error
  | ldr dr base off => obtain rfl := Host.Outcome.next.inj h; exact .load rfl rfl fun _ => State.memRead_error
  | ldi dr off => obtain rfl := Host.Outcome.next.inj h; exact .load rfl rfl fun _ => State.memReadIndirect_error
  | st sr off =>
    obtain rfl := Host.Outcome.next.inj h
    obtain ⟨_, m, hm, he⟩ | ⟨ha, he⟩ := s.storeWord_cases (s.pcRelative off) (s.reg sr) <;> rw [he]
    · exact .st hm
    · exact .outOfRange rfl ha
  | str sr base off =>
    obtain rfl := Host.Outcome.next.inj h
    obtain ⟨_, m, hm, he⟩ | ⟨ha, he⟩ := s.storeWord_cases (s.baseOffset base off) (s.reg sr) <;> rw [he]
    · exact .str hm
    · exact .outOfRange rfl ha
  | sti sr off =>
    simp only [exec, execSti] at h
    cases hp : s.memRead (s.pcRelative off) with
    | ok p =>
      rw [hp] at h
      obtain rfl := Host.Outcome.next.inj h
      obtain ⟨_, m, hm, he⟩ | ⟨ha, he⟩ := s.storeWord_cases (uval p) (s.reg sr) <;> rw [he]
      · exact .sti hp hm
      · exact .outOfRange rfl ha
    | error k =>
      rw [hp] at h
      obtain rfl := Host.Outcome.next.inj h
      obtain ⟨a, ha, rfl⟩ := State.memRead_error hp
      exact .outOfRange rfl ha
  | jsr off => obtain rfl := Host.Outcome.next.inj h; exact .jsr
  | jsrr base => obtain rfl := Host.Outcome.next.inj h; exact .jsrr
  | jmp base => obtain rfl := Host.Outcome.next.inj h; exact .jmp
  | rti => obtain rfl := Host.Outcome.next.inj h; exact .rti
  | res => obtain rfl := Host.Outcome.next.inj h; exact .res
  | out => obtain rfl := Host.Outcome.next.inj h; exact .out
  | halt => obtain rfl := Host.Outcome.next.inj h; exact .halt
  | trap v => obtain rfl := Host.Outcome.next.inj h; exact .trap
  | getc =>
    simp only [exec, execGetc, State.consoleReadLine] at h
    match hc : s.cin with
    | [] => simp [hc] at h
    | [] :: rest => simp only [hc] at h; obtain rfl := Host.Outcome.next.inj h; exact .getc hc
    | (c :: cs) :: rest => simp only [hc] at h; obtain rfl := Host.Outcome.next.inj h; exact .getc hc
  | in_ =>
    simp only [exec, execIn, State.consoleReadLine, State.consoleWrite_cin] at h
    match hc : s.cin with
    | [] => simp [hc] at h
    | [] :: rest => simp only [hc] at h; obtain rfl := Host.Outcome.next.inj h; exact .inEmpty hc
    | (c :: cs) :: rest => simp only [hc] at h; obtain rfl := Host.Outcome.next.inj h; exact .in_ hc
  | puts =>
    simp only [exec, execPuts] at h
    cases hs : s.stringAt (uval (s.reg 0)) with
    | ok ws => rw [hs] at h; obtain rfl := Host.Outcome.next.inj h; exact .puts hs
    | error k =>
      rw [hs] at h
      obtain rfl := Host.Outcome.next.inj h
      obtain ⟨a, ha, rfl⟩ := State.stringAt_error hs
      exact .outOfRange rfl ha
  | putsp =>
    simp only [exec, execPutsp] at h
    cases hs : s.stringAt (uval (s.reg 0)) with
    | ok ws => rw [hs] at h; obtain rfl := Host.Outcome.next.inj h; exact .putsp hs
    | error k =>
      rw [hs] at h
      obtain rfl := Host.Outcome.next.inj h
      obtain ⟨a, ha, rfl⟩ := State.stringAt_error hs
      exact .outOfRange rfl ha

/-- Everything a step can answer. -/
theorem step_cases (s : State) :
    (∃ k, s.fault = some k ∧ step s = .fault (.latched k)) ∨
      (s.ended ∧ step s = .fault .notRunning) ∨
      (s.inRun ∧ ∃ k, s.fetch = .error k ∧ step s = .next (s.raise k)) ∨
      (s.inRun ∧ ∃ ir, s.fetch = .ok ir ∧ step s = exec (decode ir) s.advancePc) := by
  cases hf : s.fault with
  | some k => exact .inl ⟨k, rfl, by simp [step, hf]⟩
  | none =>
    cases hr : s.running with
    | false => exact .inr (.inl ⟨⟨hr, hf⟩, by simp [step, hf, hr]⟩)
    | true =>
      cases hw : s.fetch with
      | error k => exact .inr (.inr (.inl ⟨⟨hr, hf⟩, k, rfl, by simp [step, hf, hr, hw]⟩))
      | ok ir => exact .inr (.inr (.inr ⟨⟨hr, hf⟩, ir, rfl, by simp [step, hf, hr, hw]⟩))

end Sys2Proof.Machine
end

