-- ==== Sys2Proof/Laws/PerInstr.lean ====
section
/-! SUPPORT. What is said of every instruction as syntax, one lemma per constructor. Family `OpcodeField`: the top four
bits of an instruction's word are the code of its opcode (30_encoding.md R101, R106). -/

namespace Sys2Proof.Laws.OpcodeField

/-- The opcode field of the encoded instruction is its opcode's code. -/
def Statement (i : Instr) : Prop := opcodeField (encode i) = i.opcode.code

theorem br (n : Bool) (z : Bool) (p : Bool) (off : BitVec 9) : Statement (.br n z p off) := opcodeField_encode _
theorem add (dr : RegId) (sr1 : RegId) (sr2 : RegId) : Statement (.add dr sr1 sr2) := opcodeField_encode _
theorem addi (dr : RegId) (sr1 : RegId) (imm : BitVec 5) : Statement (.addi dr sr1 imm) := opcodeField_encode _
theorem ld (dr : RegId) (off : BitVec 9) : Statement (.ld dr off) := opcodeField_encode _
theorem st (sr : RegId) (off : BitVec 9) : Statement (.st sr off) := opcodeField_encode _
theorem jsr (off : BitVec 11) : Statement (.jsr off) := opcodeField_encode _
theorem jsrr (base : RegId) : Statement (.jsrr base) := opcodeField_encode _
theorem and (dr : RegId) (sr1 : RegId) (sr2 : RegId) : Statement (.and dr sr1 sr2) := opcodeField_encode _
theorem andi (dr : RegId) (sr1 : RegId) (imm : BitVec 5) : Statement (.andi dr sr1 imm) := opcodeField_encode _
theorem ldr (dr : RegId) (base : RegId) (off : BitVec 6) : Statement (.ldr dr base off) := opcodeField_encode _
theorem str (sr : RegId) (base : RegId) (off : BitVec 6) : Statement (.str sr base off) := opcodeField_encode _
theorem rti : Statement (.rti) := opcodeField_encode _
theorem not (dr : RegId) (sr : RegId) : Statement (.not dr sr) := opcodeField_encode _
theorem ldi (dr : RegId) (off : BitVec 9) : Statement (.ldi dr off) := opcodeField_encode _
theorem sti (sr : RegId) (off : BitVec 9) : Statement (.sti sr off) := opcodeField_encode _
theorem jmp (base : RegId) : Statement (.jmp base) := opcodeField_encode _
theorem res : Statement (.res) := opcodeField_encode _
theorem lea (dr : RegId) (off : BitVec 9) : Statement (.lea dr off) := opcodeField_encode _
theorem getc : Statement (.getc) := opcodeField_encode _
theorem out : Statement (.out) := opcodeField_encode _
theorem puts : Statement (.puts) := opcodeField_encode _
theorem in_ : Statement (.in_) := opcodeField_encode _
theorem putsp : Statement (.putsp) := opcodeField_encode _
theorem halt : Statement (.halt) := opcodeField_encode _
theorem trap (vect : BitVec 8) : Statement (.trap vect) := opcodeField_encode _

end Sys2Proof.Laws.OpcodeField
end

