-- ==== Sys2Proof/Tests/Slice0.lean ====
section
/-! SUPPORT. Tests on fixed values, and a witness for each statement with hypotheses. Expected values are those of
spec/95_test_vectors.md (the row's name stands in the docstring) or were worked out by hand from the rule named. -/

namespace Sys2Proof.Tests

open Sys2Proof.Machine

/-! ### Well-formedness -/

/-- A `trap` with a service's code is no instruction of its own (30_encoding.md R106, R109). -/
theorem test_wellFormed_refuses_service_codes :
    (Instr.trap 0x20).wellFormed = false ∧ (Instr.trap 0x21).wellFormed = false ∧
    (Instr.trap 0x22).wellFormed = false ∧ (Instr.trap 0x23).wellFormed = false ∧
    (Instr.trap 0x24).wellFormed = false ∧ (Instr.trap 0x25).wellFormed = false := by decide

theorem test_wellFormed_accepts_the_codes_around : (Instr.trap 0x1F).wellFormed = true ∧
    (Instr.trap 0x26).wellFormed = true := by decide

/-! ### Decoding: words written field by field from the formats of 30_encoding.md R103 -/

theorem test_decode_br : decode 0b0000_010_111111101 = .br false true false 0b111111101 := by decide
theorem test_decode_br_always : decode 0x0000 = .br false false false 0 := by decide
/-- V2. -/
theorem test_decode_add : decode 0b0001_000_001_0_00_010 = .add 0 1 2 := by decide
/-- V3. -/
theorem test_decode_addi : decode 0b0001_111_101_1_10101 = .addi 7 5 0b10101 := by decide
theorem test_decode_ld : decode 0b0010_110_100000001 = .ld 6 0b100000001 := by decide
theorem test_decode_st : decode 0b0011_011_000001111 = .st 3 0b000001111 := by decide
theorem test_decode_jsr : decode 0b0100_1_10000000011 = .jsr 0b10000000011 := by decide
theorem test_decode_jsrr : decode 0b0100_0_11_101_111111 = .jsrr 5 := by decide
theorem test_decode_and : decode 0b0101_011_001_0_11_110 = .and 3 1 6 := by decide
theorem test_decode_andi : decode 0b0101_100_001_1_01111 = .andi 4 1 0b01111 := by decide
theorem test_decode_ldr : decode 0b0110_010_011_111111 = .ldr 2 3 0b111111 := by decide
theorem test_decode_str : decode 0b0111_001_110_000011 = .str 1 6 0b000011 := by decide
theorem test_decode_rti : decode 0b1000_101010111100 = .rti := by decide
theorem test_decode_not : decode 0b1001_010_001_111111 = .not 2 1 := by decide
theorem test_decode_ldi : decode 0b1010_001_000000001 = .ldi 1 1 := by decide
theorem test_decode_sti : decode 0b1011_101_111111111 = .sti 5 0b111111111 := by decide
theorem test_decode_jmp : decode 0b1100_111_010_111111 = .jmp 2 := by decide
theorem test_decode_res : decode 0b1101_111111111111 = .res := by decide
theorem test_decode_lea : decode 0b1110_000_000000101 = .lea 0 5 := by decide
theorem test_decode_getc : decode 0b1111_0000_00100000 = .getc := by decide
theorem test_decode_out : decode 0b1111_0000_00100001 = .out := by decide
theorem test_decode_puts : decode 0b1111_0000_00100010 = .puts := by decide
theorem test_decode_in : decode 0b1111_0000_00100011 = .in_ := by decide
theorem test_decode_putsp : decode 0b1111_0000_00100100 = .putsp := by decide
theorem test_decode_halt : decode 0b1111_1111_00100101 = .halt := by decide
theorem test_decode_trap : decode 0b1111_0000_00100110 = .trap 0x26 := by decide

/-- RET is JMP R7, word 0xC1C0 (30_encoding.md R113); NOT R2, R1 is 0x947F (95 O16). -/
theorem test_encode_customary : encode (.jmp 7) = 0xC1C0 ∧ encode (.not 2 1) = 0x947F ∧ encode .halt = 0xF025 := by
  decide

/-- Bytes: the high byte first (R115), and what follows is left. -/
theorem test_decodeBytes : decodeBytes [0x10, 0x42, 0xF0] = .ok (.add 0 1 2, [0xF0]) ∧
    decodeBytes [0x10] = .error .shortWord := by decide

theorem test_decodeTableWord : decodeTableWord 16 0x1F75 = some (.addi 7 5 0b10101) ∧
    decodeTableWord 16 0xF000 = some (.trap 0) ∧ decodeTableWord 0 0 = none ∧ decodeTableWord 17 0 = none := by decide

/-! ### The memory engine: sections 1 and 2.1 of the vectors -/

/-- K1, K3, K8, K9 and V10. -/
theorem test_masks : generateMask 64 0 16 (by decide) = 0x0000FFFFFFFFFFFF ∧
    generateMask 64 49 64 (by decide) = 0xFFFFFFFFFFFF8000 ∧ generateMask 64 0 64 (by decide) = 0 ∧
    generateMask 8 2 5 (by decide) = 0xC7 ∧ generateMask 64 64 64 (by decide) = 0xFFFFFFFFFFFFFFFF := by decide

/-- The Locate row. -/
theorem test_locate : locate 63 64 = (0, 63) ∧ locate 64 64 = (1, 0) ∧ locate 0x3031 64 = (192, 49) := by decide

/-- A write of the sixteen-bit engine, as data. -/
def put (m : Memory) (b : Int) (v : Word) : Memory :=
  match engineWrite 16 Config.instructionWidth_valid m b v with
  | .ok m' => m'
  | .error _ => m

/-- A read of the sixteen-bit engine. -/
def get (m : Memory) (b : Int) : Except Failure Word := engineRead 16 Config.instructionWidth_valid m b

/-- A memory of `n` zero cells. -/
def zeroCells (n : Nat) : Memory := { cellCount := n, cells := [] }

/-- V1, the document's own example: two overlapping writes, each split over two cells. -/
theorem test_split_writes_overlap :
    put (put (zeroCells 200) 0x3031 0b1001110001001011) 0x303A 0b1001110001001011 =
      { cellCount := 200, cells := [(192, 0x0000000000004E27), (193, 0x12C0000000000000)] } ∧
    get (put (put (zeroCells 200) 0x3031 0b1001110001001011) 0x303A 0b1001110001001011) 0x3031 =
      .ok 0b1001110001001110 := by decide

/-- E2 and E3. -/
theorem test_value_ending_on_the_last_bit_is_not_split :
    put (put (zeroCells 4) 0 0xABCD) 48 0x1234 = { cellCount := 4, cells := [(0, 0xABCD000000001234)] } ∧
    put (put (put (zeroCells 4) 0 0xABCD) 48 0x1234) 56 0xFFFF =
      { cellCount := 4, cells := [(0, 0xABCD0000000012FF), (1, 0xFF00000000000000)] } := by decide

/-- E4: zeros into ones, split 4 + 12. -/
theorem test_split_write_clears :
    put { cellCount := 2, cells := [(0, 0xFFFFFFFFFFFFFFFF), (1, 0xFFFFFFFFFFFFFFFF)] } 60 0 =
      { cellCount := 2, cells := [(0, 0xFFFFFFFFFFFFFFF0), (1, 0x000FFFFFFFFFFFFF)] } := by decide

/-- E5, E6, E7: the last valid address and both sides outside. -/
theorem test_range_check : put (zeroCells 4) 240 0x8001 = { cellCount := 4, cells := [(3, 0x8001)] } ∧
    get (zeroCells 4) 240 = .ok 0 ∧ get (zeroCells 4) 241 = .error (.addressOutOfRange 241) ∧
    get (zeroCells 4) (-1) = .error (.addressOutOfRange (-1)) := by decide

/-- Writing what an unlisted cell holds leaves no entry: the canonical form. -/
theorem test_zero_write_unlists : put (put (zeroCells 4) 0 0xABCD) 0 0 = zeroCells 4 := by decide

/-- A1 and A2. -/
theorem test_words_of_a_cell :
    put (put (zeroCells 16384) (bitAddr 0x3000) 0x1042) (bitAddr 0x3003) 0xF025 =
      { cellCount := 16384, cells := [(3072, 0x104200000000F025)] } := by decide

/-! ### One step -/

/-- A machine about to run the word `w` at address `a`, with the listed registers and memory words. -/
def at_ (a : Word) (w : Word) (regs : List (RegId × Word)) (mem : List (Word × Word)) : State :=
  mem.foldl (fun s e => s.storeWord (uval e.1) e.2)
    (regs.foldl (fun s e => s.setReg e.1 e.2)
      (({ State.reset with pc := a, running := true }).storeWord (uval a) w))

/-- The same with a flag code in COND. -/
def withCond (s : State) (c : Word) : State := { s with cond := c }

/-- The same with lines of input. -/
def withLines (s : State) (lines : List Text) : State := { s with cin := lines }

/-- What a next state shows; nothing if the step answers none. -/
def shows {α : Type} (o : StepOutcome) (f : State → α) : Option α :=
  match o with
  | .next t => some (f t)
  | .fault _ => none
  | .refused _ => none

/-- The fault a step stops on. -/
def stops (o : StepOutcome) : Option Fault :=
  match o with
  | .next _ => none
  | .fault k => some k
  | .refused _ => none

/-- V2. -/
theorem test_add : shows (step (at_ 0x3000 0x1042 [(1, 2), (2, 4)] [])) (fun t => (t.reg 0, t.cond, t.pc)) =
    some (6, 1, 0x3001) := by decide
/-- O3. -/
theorem test_add_wraps : shows (step (at_ 0x3000 0x1042 [(1, 0xFFFF), (2, 1), (0, 0x5555)] []))
    (fun t => (t.reg 0, t.cond)) = some (0, 2) := by decide
/-- V3. -/
theorem test_addi : shows (step (at_ 0x3000 0x1F75 [(5, 2)] [])) (fun t => (t.reg 7, t.cond)) =
    some (0xFFF7, 4) := by decide
/-- O11. -/
theorem test_and : shows (step (at_ 0x3000 0x5642 [(1, 0x8001), (2, 0xC000)] [])) (fun t => (t.reg 3, t.cond)) =
    some (0x8000, 4) := by decide
/-- O13. -/
theorem test_andi : shows (step (at_ 0x3000 0x5930 [(4, 0xABCD)] [])) (fun t => (t.reg 4, t.cond)) =
    some (0xABC0, 4) := by decide
/-- O19. -/
theorem test_not : shows (step (at_ 0x3000 0x9B7F [(5, 0x8000)] [])) (fun t => (t.reg 5, t.cond)) =
    some (0x7FFF, 1) := by decide
/-- L2: it loads itself. -/
theorem test_ld : shows (step (at_ 0x3000 0x21FF [] [])) (fun t => (t.reg 0, t.cond, t.pc)) =
    some (0x21FF, 1, 0x3001) := by decide
/-- L3: the exact effective address is -1. -/
theorem test_ld_below_memory : shows (step (at_ 0 0x21FE [] [])) (fun t => (t.fault, t.pc, t.running)) =
    some (some (.addressOutOfRange (-16)), 1, true) := by decide
/-- V7. -/
theorem test_ldi : shows (step (at_ 0x3000 0xA201 [] [(0x3002, 0x3100), (0x3100, 0x7F)]))
    (fun t => (t.reg 1, t.cond)) = some (0x7F, 1) := by decide
/-- L7: the pointer is read unsigned. -/
theorem test_ldi_unsigned_pointer : shows (step (at_ 0x3000 0xA201 [] [(0x3002, 0xFFFF), (0xFFFF, 0xBEEF)]))
    (fun t => (t.reg 1, t.cond)) = some (0xBEEF, 4) := by decide
/-- L11: DR is the base. -/
theorem test_ldr : shows (step (at_ 0x3000 0x6240 [(1, 0x3005)] [(0x3005, 0x9000)])) (fun t => (t.reg 1, t.cond)) =
    some (0x9000, 4) := by decide
/-- L12. -/
theorem test_ldr_above_memory : shows (step (at_ 0x3000 0x6441 [(1, 0xFFFF), (2, 9)] []))
    (fun t => (t.fault, t.reg 2)) = some (some (.addressOutOfRange 1048576), 9) := by decide
/-- L16: the program counter has wrapped. -/
theorem test_lea : shows (step (at_ 0xFFFF 0xE000 [(0, 5)] [])) (fun t => (t.reg 0, t.cond, t.pc)) =
    some (0, 2, 0) := by decide
/-- S2: it overwrites itself. -/
theorem test_st : shows (step (at_ 0x3000 0x37FF [(3, 0xBEEF)] [])) (fun t => (t.memRead 0x3000, t.cond)) =
    some (.ok 0xBEEF, 0) := by decide
/-- S5: the pointer names itself. -/
theorem test_sti : shows (step (at_ 0x3000 0xB002 [(0, 0x41)] [(0x3003, 0x3003)])) (fun t => t.memRead 0x3003) =
    some (.ok 0x41) := by decide
/-- S10: the neighbours are intact. -/
theorem test_str : shows (step (at_ 0x3000 0x7380 [(6, 0x4000), (1, 0xFFFF)] [(0x3FFF, 0x1111), (0x4001, 0x2222)]))
    (fun t => (t.memRead 0x3FFF, t.memRead 0x4000, t.memRead 0x4001)) =
    some (.ok 0x1111, .ok 0xFFFF, .ok 0x2222) := by decide
/-- S9. -/
theorem test_str_below_memory : shows (step (at_ 0x3000 0x73BF [(6, 0), (1, 0x1234)] [])) (fun t => (t.fault, t.pc)) =
    some (some (.addressOutOfRange (-16)), 0x3001) := by decide
/-- C2, C8, C19: no flag names no branch, the named flag branches, nzp = 000 always branches. -/
theorem test_br : shows (step (at_ 0x3000 0x0205 [] [])) State.pc = some 0x3001 ∧
    shows (step (withCond (at_ 0x3000 0x0205 [] []) 1)) State.pc = some 0x3006 ∧
    shows (step (withCond (at_ 0x3000 0x0005 [] []) 4)) State.pc = some 0x3006 := by decide
/-- C28: the target wraps. -/
theorem test_br_wraps : shows (step (at_ 0x0010 0x0100 [] [])) State.pc = some 0xFF11 := by decide
/-- C32, C33. -/
theorem test_jmp : shows (step (at_ 0x3000 0xCEBF [(2, 0x3100)] [])) State.pc = some 0x3100 ∧
    shows (step (at_ 0x3000 0xC1C0 [(7, 0x3003)] [])) State.pc = some 0x3003 := by decide
/-- C37, C38. -/
theorem test_jsr : shows (step (at_ 0x3000 0x4C00 [] [])) (fun t => (t.reg 7, t.pc)) = some (0x3001, 0x2C01) ∧
    shows (step (at_ 0xFFF0 0x4BFF [] [])) (fun t => (t.reg 7, t.pc)) = some (0xFFF1, 0x03F0) := by decide
/-- C39, C41: JSRR R7 does not jump. -/
theorem test_jsrr : shows (step (at_ 0x3000 0x4080 [(2, 0x3200)] [])) (fun t => (t.reg 7, t.pc)) =
      some (0x3001, 0x3200) ∧
    shows (step (at_ 0x3000 0x41C0 [(7, 0x1234)] [])) (fun t => (t.reg 7, t.pc)) = some (0x3001, 0x3001) := by decide
/-- C42. -/
theorem test_rti : shows (step (withCond (at_ 0x3000 0x8000 [(6, 0x4000), (7, 0x1234)] []) 2))
    (fun t => (t.pc, t.reg 6, t.reg 7, t.cond)) = some (0x3001, 0x4000, 0x1234, 2) := by decide
/-- C45. -/
theorem test_res : shows (step (withCond (at_ 0xFFFF 0xDFFF [] []) 4)) (fun t => (t.pc, t.cond)) = some (0, 4) := by
  decide
/-- T1. -/
theorem test_getc : shows (step (withLines (withCond (at_ 0x3000 0xF020 [(0, 0xAAAA)] []) 4) [[0x68, 0x69], [0x78]]))
    (fun t => (t.reg 0, t.cond, t.cin)) = some (0x68, 4, [[0x78]]) := by decide
/-- T2, T3. -/
theorem test_getc_without_a_character :
    shows (step (withLines (withCond (at_ 0x3000 0xF020 [(0, 0xAAAA)] []) 4) [[]]))
      (fun t => (t.reg 0, t.cond, t.cin)) = some (0, 4, []) ∧
    stops (step (at_ 0x3000 0xF020 [] [])) = some .stuckAwaitingLine := by decide
/-- T4, T5. -/
theorem test_out : shows (step (at_ 0x3000 0xF021 [(0, 0x1241)] [])) State.cout = some [0x41] ∧
    shows (step (at_ 0x3000 0xF021 [(0, 0xFF00)] [])) State.cout = some [0] := by decide
/-- T6. -/
theorem test_puts : shows (step (at_ 0x3000 0xF022 [(0, 0x3010)] [(0x3010, 0x48), (0x3011, 0x69)]))
    (fun t => (t.cout, t.reg 0)) = some ([0x48, 0x69], 0x3010) := by decide
/-- T9: no terminator below the top of memory. -/
theorem test_puts_past_memory : shows (step (at_ 0x3000 0xF022 [(0, 0xFFFE)] [(0xFFFE, 0x41), (0xFFFF, 0x42)]))
    (fun t => (t.fault, t.cout)) = some (some (.addressOutOfRange 1048576), []) := by decide
/-- T10; the prompt is a free value, so only its place is tested. -/
theorem test_in : shows (step (withLines (withCond (at_ 0x3000 0xF023 [] []) 2) [[0x78]]))
    (fun t => (t.reg 0, t.cond, t.cin)) = some (0x78, 2, []) := by decide
/-- T11. -/
theorem test_in_empty_line : shows (step (withLines (at_ 0x3000 0xF023 [] []) [[]])) (fun t => (t.fault, t.cin)) =
    some (some .unspecifiedInEmptyLine, []) := by decide
/-- T12. -/
theorem test_putsp :
    shows (step (at_ 0x3000 0xF024 [(0, 0x3010)] [(0x3010, 0x4865), (0x3011, 0x6C6C), (0x3012, 0x6F00)])) State.cout =
      some [0x48, 0x65, 0x6C, 0x6C, 0x6F, 0] := by decide
/-- T15. -/
theorem test_halt : shows (step (withCond (at_ 0x3000 0xF025 [(7, 0x1234)] []) 1))
    (fun t => (t.running, t.fault, t.reg 7, t.cond)) = some (false, none, 0x1234, 1) := by decide
/-- T17. -/
theorem test_trap : shows (step (withCond (at_ 0x3000 0xF026 [(7, 0x1234)] []) 1))
    (fun t => (t.fault, t.running, t.reg 7, t.cond)) = some (some (.unknownTrapCode 0x26), true, 0x1234, 1) := by decide

/-- A8: a machine of one cell fails at its first fetch, the program counter not incremented. -/
theorem test_failed_fetch :
    shows (step (State.constructed 1).startRun) (fun t => (t.fault, t.pc)) =
      some (some (.addressOutOfRange 196608), 0x3000) := by decide

/-- After reset nothing runs; the host's word runs as the first instruction. -/
theorem test_withFetchWord : stops (step State.reset) = some .notRunning ∧
    shows (step (State.reset.withFetchWord 16 0xE005)) (fun t => (t.reg 0, t.pc)) = some (0x3006, 0x3001) := by decide

/-- V9: HALT alone, loaded by `writeProgram` and started by `run()`. -/
theorem test_writeProgram_and_run :
    shows (State.reset.writeProgram 0x3000 "1111000000100101".toList) (fun s =>
      shows s.run (fun r => shows (step r) (fun t => (t.running, t.pc, t.fault)))) =
      some (some (some (false, 0x3001, none))) := by decide

/-- W3, W4: a short last chunk, with the word before it written; a character that is no digit. -/
theorem test_writeProgram_malformed :
    shows (State.reset.writeProgram 0x3000 "00010000010000101".toList) (fun t => (t.fault, t.memRead 0x3000)) =
      some (some .malformedProgram, .ok 0x1042) ∧
    shows (State.reset.writeProgram 0x3000 "000100000100001x".toList) (fun t => (t.fault, t.mem)) =
      some (some .malformedProgram, State.reset.mem) := by decide

/-- W5: the second word does not fit, the first stays written, the load pointer does not wrap. -/
theorem test_writeProgram_past_memory :
    shows (State.reset.writeProgram 0xFFFF ("1111000000100101".toList ++ "1111000000100101".toList))
      (fun t => (t.fault, t.memRead 0xFFFF, t.memRead 0)) =
      some (some (.addressOutOfRange 1048576), .ok 0xF025, .ok 0) := by decide

/-! ### Witnesses: every statement with hypotheses has states and operands that meet all of them -/

theorem witness_DecodeEncodeAgree :
    (Instr.trap 0xFF).wellFormed = true ∧ (Instr.br true true true 0x1FF).wellFormed = true := by decide

/-- The register numbers exist for every word. -/
theorem witness_DecodeFollowsTheOpcodeMap_registers (w : Word) : ∃ a b c : RegId,
    a.val = w.toNat / 512 % 8 ∧ b.val = w.toNat / 64 % 8 ∧ c.val = w.toNat % 8 :=
  ⟨⟨w.toNat / 512 % 8, Nat.mod_lt _ (by decide)⟩, ⟨w.toNat / 64 % 8, Nat.mod_lt _ (by decide)⟩,
    ⟨w.toNat % 8, Nat.mod_lt _ (by decide)⟩, rfl, rfl, rfl⟩

/-- Each clause of the map, at the words with all other bits set. -/
theorem witness_DecodeFollowsTheOpcodeMap :
    0x0FFF#16 &&& 0xF000 = 0x0000 ∧ 0x1FDF#16 &&& 0xF020 = 0x1000 ∧ 0x1FFF#16 &&& 0xF020 = 0x1020 ∧
    0x2FFF#16 &&& 0xF000 = 0x2000 ∧ 0x3FFF#16 &&& 0xF000 = 0x3000 ∧ 0x4FFF#16 &&& 0xF800 = 0x4800 ∧
    0x47FF#16 &&& 0xF800 = 0x4000 ∧ 0x5FDF#16 &&& 0xF020 = 0x5000 ∧ 0x5FFF#16 &&& 0xF020 = 0x5020 ∧
    0x6FFF#16 &&& 0xF000 = 0x6000 ∧ 0x7FFF#16 &&& 0xF000 = 0x7000 ∧ 0x8FFF#16 &&& 0xF000 = 0x8000 ∧
    0x9FFF#16 &&& 0xF000 = 0x9000 ∧ 0xAFFF#16 &&& 0xF000 = 0xA000 ∧ 0xBFFF#16 &&& 0xF000 = 0xB000 ∧
    0xCFFF#16 &&& 0xF000 = 0xC000 ∧ 0xDFFF#16 &&& 0xF000 = 0xD000 ∧ 0xEFFF#16 &&& 0xF000 = 0xE000 ∧
    0xFF20#16 &&& 0xF0FF = 0xF020 ∧ 0xFF21#16 &&& 0xF0FF = 0xF021 ∧ 0xFF22#16 &&& 0xF0FF = 0xF022 ∧
    0xFF23#16 &&& 0xF0FF = 0xF023 ∧ 0xFF24#16 &&& 0xF0FF = 0xF024 ∧ 0xFF25#16 &&& 0xF0FF = 0xF025 ∧
    (0xF01F#16 &&& 0xF000 = 0xF000 ∧ (0xF01F#16).toNat % 256 < 0x20) ∧
    (0xF026#16 &&& 0xF000 = 0xF000 ∧ 0x25 < (0xF026#16).toNat % 256) := by decide

/-- Widths 1 and 16, top bit clear and set, and a bit on either side of the width. -/
theorem witness_ExtensionFillsTheHigherBits :
    (0#1).getLsbD (1 - 1) = false ∧ (1#1).getLsbD (1 - 1) = true ∧ (0x7FFF#16).getLsbD (16 - 1) = false ∧
    (0x8000#16).getLsbD (16 - 1) = true ∧ (0b10101#5).getLsbD (5 - 1) = true := by decide

theorem witness_MaskClearsExactlyItsRange :
    (0 ≤ 0 ∧ 0 ≤ 64) ∧ (0 ≤ 64 ∧ 64 ≤ 64) ∧ (64 ≤ 64 ∧ 64 ≤ 64) ∧ (2 ≤ 5 ∧ 5 ≤ 8) := by decide

/-- The smallest and the greatest width; -1, 0, MAX_ADDR and MAX_ADDR + 1. -/
theorem witness_AccessFailsExactlyOutsideTheArena :
    (2 ≤ 2 ∧ 2 ≤ 64) ∧ (2 ≤ 64 ∧ 64 ≤ 64) ∧ (-1 : Int) < 0 ∧ (zeroCells 4).maxAddress 16 < 241 ∧
    (0 : Int) ≤ 0 ∧ (0 : Int) ≤ (zeroCells 4).maxAddress 16 ∧ (240 : Int) ≤ (zeroCells 4).maxAddress 16 ∧
    0 < (zeroCells 4).cellCount := by decide

/-- A write in one cell and one over two, with bits inside the value and on both sides of it. -/
theorem witness_WritePlacesItsBits :
    (∃ m', engineWrite 16 Config.instructionWidth_valid (zeroCells 4) (48 : Nat) 0x8001 = .ok m') ∧
    (∃ m', engineWrite 16 Config.instructionWidth_valid (zeroCells 4) (56 : Nat) 0x8001 = .ok m') ∧
    0 < 16 ∧ 15 < 16 ∧ 55 < 56 ∧ 56 + 16 ≤ 72 := by
  refine ⟨⟨_, rfl⟩, ⟨_, rfl⟩, ?_⟩
  decide

theorem witness_ReadReturnsTheArenaBits :
    (∃ x, engineRead 16 Config.instructionWidth_valid (zeroCells 4) (48 : Nat) = .ok x) ∧
    (∃ x, engineRead 16 Config.instructionWidth_valid (zeroCells 4) (240 : Nat) = .ok x) :=
  ⟨⟨_, rfl⟩, ⟨_, rfl⟩⟩

/-- The last valid address of the widest and of the sixteen-bit engine, and a later write on each side. -/
theorem witness_ReadAfterWriteReturnsTheValue :
    (0 : Int) ≤ 0 ∧ (0 : Int) ≤ (zeroCells 1).maxAddress 64 ∧ (0 : Int) ≤ 56 ∧
    (56 : Int) ≤ (zeroCells 4).maxAddress 16 ∧ (240 : Int) ≤ (zeroCells 4).maxAddress 16 ∧
    ((40 : Int) + (16 : Nat) ≤ 56 ∧
      ∃ m2, engineWrite 16 Config.instructionWidth_valid (put (zeroCells 4) 56 0x8001) 40 0xFFFF = .ok m2) ∧
    ((56 : Int) + (16 : Nat) ≤ 72 ∧
      ∃ m2, engineWrite 16 Config.instructionWidth_valid (put (zeroCells 4) 56 0x8001) 72 0xFFFF = .ok m2) :=
  ⟨by decide, by decide, by decide, by decide, by decide, ⟨by decide, _, rfl⟩, ⟨by decide, _, rfl⟩⟩

theorem witness_DistantWritesDoNotDisturb :
    (∃ m', engineWrite 16 Config.instructionWidth_valid (zeroCells 4) 56 0xFFFF = .ok m') ∧
    (40 : Int) + (16 : Nat) ≤ 56 ∧ (56 : Int) + (16 : Nat) ≤ 72 := by
  refine ⟨⟨_, rfl⟩, ?_⟩
  decide

theorem witness_CellHoldsFourWordsHighFirst : 0 < State.reset.mem.cellCount ∧ 16383 < State.reset.mem.cellCount := by
  decide

theorem witness_WordAddressesAreFourPerCell :
    (0 : Int) ≤ 0 ∧ (0 : Int) ≤ 4 * (State.reset.mem.cellCount : Int) - 1 ∧
    (65535 : Int) ≤ 4 * (State.reset.mem.cellCount : Int) - 1 ∧ (-1 : Int) < 0 ∧
    4 * (State.reset.mem.cellCount : Int) - 1 < 65536 := by decide

theorem witness_EqualMemoriesAreEqualData :
    (put (zeroCells 4) 0 0xABCD).wf ∧ (put (put (zeroCells 4) 0 1) 0 0xABCD).wf ∧
    (put (zeroCells 4) 0 0xABCD).cellCount = (put (put (zeroCells 4) 0 1) 0 0xABCD).cellCount ∧
    ∀ k, (put (zeroCells 4) 0 0xABCD).cellAt k = (put (put (zeroCells 4) 0 1) 0 0xABCD).cellAt k := by
  refine ⟨by decide, by decide, by decide, fun k => ?_⟩
  rw [show put (put (zeroCells 4) 0 1) 0 0xABCD = put (zeroCells 4) 0 0xABCD by decide]

theorem witness_ConstructionGivesTheResetValues :
    (0 : Int) ≤ 0 ∧ (1 : Int) < 2 ∧ (64 : Int) < 65 ∧ (-1 : Int) ≤ 0 ∧ (0 : Int) < 1 ∧ (2 : Int) ≤ 2 ∧
    (2 : Int) ≤ 64 ∧ (64 : Int) ≤ 64 := by decide

/-- A machine in a run, about to add. -/
def adding : State := at_ 0x3000 0x1042 [(1, 2), (2, 4)] []

theorem witness_StepKeepsTheInvariant : adding.Inv ∧ ∃ t, step adding = .next t :=
  ⟨by decide, _, rfl⟩

/-- A fetch that succeeds and one that fails. -/
theorem witness_StepRunsTheDecodedInstruction :
    (adding.running = true ∧ adding.fault = none ∧ adding.memRead (uval adding.pc) = .ok 0x1042) ∧
    ((State.constructed 1).startRun.running = true ∧ (State.constructed 1).startRun.fault = none ∧
      (State.constructed 1).startRun.memRead (uval (State.constructed 1).startRun.pc) =
        .error (.addressOutOfRange 196608)) := by decide

theorem witness_NoStepAfterAFailureOrOutsideARun :
    (adding.withFailure .malformedProgram).fault = some .malformedProgram ∧
    State.reset.fault = none ∧ State.reset.running = false := by decide

theorem witness_OnlyRunAndHaltWriteTheRunFlag :
    (∃ t, State.reset.run = .next t) ∧ (∃ t, State.reset.writeProgram 0 [] = .next t) ∧
    State.reset.running = false ∧ (∃ t, step adding = .next t) ∧
    (∃ t, step (State.constructed 1).startRun = .next t) ∧
    (∃ t, exec .halt adding = .next t) ∧ (∃ t, exec .rti adding = .next t) ∧ Instr.rti ≠ .halt :=
  ⟨⟨_, rfl⟩, ⟨_, rfl⟩, rfl, ⟨_, rfl⟩, ⟨_, rfl⟩, ⟨_, rfl⟩, ⟨_, rfl⟩, by decide⟩

/-- A result, an instruction without a flag destination, and a load that fails. -/
theorem witness_FlagsAreWrittenOnlyByFlagInstructions :
    (∃ t, adding.fault = none ∧ exec (.add 0 1 2) adding = .next t ∧ flagDest (.add 0 1 2) = some 0 ∧ t.fault = none) ∧
    (∃ t, exec .getc (adding.supplyLine [1]) = .next t ∧ flagDest .getc = none) ∧
    (∃ t, exec (.ldr 2 1 0) ((State.constructed 1).setReg 1 4) = .next t ∧ t.fault ≠ none) :=
  ⟨⟨_, rfl, rfl, rfl, rfl⟩, ⟨_, rfl, rfl⟩, ⟨_, rfl, by decide⟩⟩

/-- An instruction that writes the flags and one that leaves them. -/
theorem witness_OnlyBrReadsTheFlags :
    (∀ n z p off, Instr.add 0 1 2 ≠ .br n z p off) ∧ (∃ t, exec (.add 0 1 2) adding = .next t) ∧
    (∀ n z p off, Instr.out ≠ .br n z p off) ∧ ∃ t, exec .out adding = .next t :=
  ⟨nofun, ⟨_, rfl⟩, nofun, ⟨_, rfl⟩⟩

theorem witness_FlagsNeverReturnToNone :
    (withCond adding 4).cond ≠ 0 ∧ (∃ t, step (withCond adding 4) = .next t) ∧ ∃ t, State.reset.run = .next t :=
  ⟨by decide, ⟨_, rfl⟩, ⟨_, rfl⟩⟩

theorem witness_RegistersAreWrittenOnlyByTheirInstructions :
    ∃ t, exec (.add 0 1 2) adding = .next t ∧ writtenReg (.add 0 1 2) ≠ some 1 :=
  ⟨_, rfl, by decide⟩

/-- Clause by clause: no store, no output, no input, and an instruction that consumes a line. -/
theorem witness_OnlyStoresWriteMemoryAndOnlyServicesTouchTheConsole :
    (∃ t, exec (.add 0 1 2) adding = .next t) ∧ (∀ r off, Instr.add 0 1 2 ≠ .st r off) ∧
    (∀ r off, Instr.add 0 1 2 ≠ .sti r off) ∧ (∀ r b off, Instr.add 0 1 2 ≠ .str r b off) ∧
    Instr.add 0 1 2 ≠ .out ∧ Instr.add 0 1 2 ≠ .puts ∧ Instr.add 0 1 2 ≠ .putsp ∧ Instr.add 0 1 2 ≠ .in_ ∧
    Instr.add 0 1 2 ≠ .getc ∧ ∃ t, exec .getc (adding.supplyLine []) = .next t :=
  ⟨⟨_, rfl⟩, nofun, nofun, nofun, nofun, nofun, nofun, nofun, nofun, ⟨_, rfl⟩⟩

/-- Each of the three failures. -/
theorem witness_OnlyThreeFailuresAriseInARun :
    (∃ t, step (State.constructed 1).startRun = .next t ∧ t.fault = some (.addressOutOfRange 196608)) ∧
    (∃ t, step (at_ 0x3000 0xF026 [] []) = .next t ∧ t.fault = some (.unknownTrapCode 0x26)) ∧
    (∃ t, step ((at_ 0x3000 0xF023 [] []).supplyLine []) = .next t ∧ t.fault = some .unspecifiedInEmptyLine) :=
  ⟨⟨_, rfl, rfl⟩, ⟨_, rfl, rfl⟩, ⟨_, rfl, rfl⟩⟩

theorem witness_FailedInstructionHasNoOtherEffect :
    adding.fault = none ∧ (∃ t, exec (.trap 0x26) adding = .next t ∧ t.fault = some (.unknownTrapCode 0x26)) ∧
    ∃ t, exec .in_ (adding.supplyLine []) = .next t ∧ t.fault = some .unspecifiedInEmptyLine :=
  ⟨rfl, ⟨_, rfl, rfl⟩, ⟨_, rfl, rfl⟩⟩

/-- A run that goes on, and the two waits. -/
theorem witness_EveryStepOfARunCompletesOrAwaitsALine :
    adding.inRun ∧ ¬adding.awaitsLine ∧ (at_ 0x3000 0xF020 [] []).awaitsLine ∧
    (at_ 0x3000 0xF023 [] []).awaitsLine := by
  refine ⟨by decide, ?_, ⟨by decide, rfl, .inl rfl⟩, ⟨by decide, rfl, .inr rfl⟩⟩
  rintro ⟨_, _, h | h⟩ <;> exact absurd (Except.ok.inj h) (by decide)

theorem witness_ProgramCounterAfterEachStep :
    (∃ t, step adding = .next t ∧ adding.fetch = .ok 0x1042) ∧
    ∃ t, step (State.constructed 1).startRun = .next t ∧
      (State.constructed 1).startRun.fetch = .error (.addressOutOfRange 196608) :=
  ⟨⟨_, rfl, by decide⟩, ⟨_, rfl, by decide⟩⟩

/-- A run that ends by HALT and one that fails. -/
theorem witness_TheEndOfARunIsUnique :
    (∃ t, Reaches (at_ 0x3000 0xF025 [] []) t ∧ t.ended) ∧ ∃ t, Reaches (at_ 0x3000 0xF026 [] []) t ∧ t.failed :=
  ⟨⟨_, .step .refl rfl, by decide⟩, ⟨_, .step .refl rfl, by decide⟩⟩

/-- The last address of memory, and the first past it; `pc` is what a handler sees. -/
theorem witness_LdLoadsPcRelative :
    (at_ 0xFFFE 0 [] []).validAddr (uval (at_ 0xFFFE 0 [] []).pc + (1 : BitVec 9).toInt) ∧
    ¬(at_ 0xFFFE 0 [] []).validAddr (uval (at_ 0xFFFE 0 [] []).pc + (2 : BitVec 9).toInt) := by decide

/-- A pointer read that fails; a pointer that names a word, and one that names none. -/
theorem witness_LdiLoadsThroughAPointer :
    ¬(at_ 0xFFFE 0 [] []).validAddr (uval (at_ 0xFFFE 0 [] []).pc + (2 : BitVec 9).toInt) ∧
    (State.constructed 1).validAddr (uval (State.constructed 1).pc + (0 : BitVec 9).toInt) ∧
    (State.constructed 1).validAddr (uval 3) ∧ ¬(State.constructed 1).validAddr (uval 4) := by decide

theorem witness_LdrLoadsBasePlusOffset :
    (at_ 0 0 [(1, 0xFFFF)] []).validAddr (uval ((at_ 0 0 [(1, 0xFFFF)] []).reg 1) + (0 : BitVec 6).toInt) ∧
    ¬(at_ 0 0 [(1, 0xFFFF)] []).validAddr (uval ((at_ 0 0 [(1, 0xFFFF)] []).reg 1) + (1 : BitVec 6).toInt) := by decide

theorem witness_StStoresPcRelative :
    (at_ 0xFFFE 0 [] []).validAddr ((at_ 0xFFFE 0 [] []).pcRelative 1) ∧
    ¬(at_ 0 0 [] []).validAddr ((at_ 0 0 [] []).pcRelative 0x1FF) := by decide

theorem witness_StiStoresThroughAPointer :
    ¬(at_ 0 0 [] []).validAddr ((at_ 0 0 [] []).pcRelative 0x1FF) ∧
    (State.constructed 1).validAddr ((State.constructed 1).pcRelative 0) ∧
    (State.constructed 1).validAddr (uval 3) ∧ ¬(State.constructed 1).validAddr (uval 4) := by decide

theorem witness_StrStoresBasePlusOffset :
    (at_ 0 0 [(6, 0xFFFF)] []).validAddr ((at_ 0 0 [(6, 0xFFFF)] []).baseOffset 6 0) ∧
    ¬(at_ 0 0 [] []).validAddr ((at_ 0 0 [] []).baseOffset 6 0x3F) := by decide

theorem witness_StoreIsSeenByTheNextFetch : adding.validAddr (uval adding.pc) := by decide

/-- Every flag meets a taken and an untaken branch; COND = 0 is taken only by nzp = 000. -/
theorem witness_BrBranchesOnTheCurrentFlag :
    (withCond adding 0).condLegal ∧ (withCond adding 1).condLegal ∧ (withCond adding 2).condLegal ∧
    (withCond adding 4).condLegal ∧ (withCond adding 4).cond = Config.flagN ∧ (withCond adding 2).cond = Config.flagZ ∧
    (withCond adding 1).cond = Config.flagP ∧
    ¬(true = false ∧ true = false ∧ true = false) ∧ ¬(true = true ∧ (withCond adding 0).cond = Config.flagN) ∧
    ¬(true = true ∧ (withCond adding 0).cond = Config.flagZ) ∧
    ¬(true = true ∧ (withCond adding 0).cond = Config.flagP) := by decide

/-- Another register than R7, and R7. -/
theorem witness_JsrrCallsThroughARegister : (6 : RegId) ≠ 7 ∧ (7 : RegId) = 7 := by decide

theorem witness_GetcReadsALine :
    (adding.supplyLine []).cin = [] :: [] ∧ (adding.supplyLine [1, 2]).cin = [1, 2] :: [] ∧ adding.cin = [] := by decide

/-- The empty string, a string of one word, and no terminator up to the top of memory. -/
theorem witness_PutsWritesTheString :
    (at_ 0 0 [(0, 0x4000)] []).holdsString (uval ((at_ 0 0 [(0, 0x4000)] []).reg 0)) [] ∧
    (at_ 0 0 [(0, 0x4000)] [(0x4000, 0x48)]).holdsString
      (uval ((at_ 0 0 [(0, 0x4000)] [(0x4000, 0x48)]).reg 0)) [0x48] ∧
    ((State.constructed 1).setReg 0 4).noTerminator (uval (((State.constructed 1).setReg 0 4).reg 0)) := by
  refine ⟨⟨nofun, by decide⟩, ⟨fun k h => ?_, by decide⟩, fun k h => ?_⟩
  · obtain rfl : k = 0 := by simpa using h
    exact (by decide : (0x48 : Word) ≠ 0 ∧ (at_ 0 0 [(0, 0x4000)] [(0x4000, 0x48)]).memRead 0x4000 = .ok 0x48)
  · obtain ⟨hv, _⟩ | ⟨_, he⟩ := ((State.constructed 1).setReg 0 4).memRead_cases
      (uval (((State.constructed 1).setReg 0 4).reg 0) + (k : Int) * Config.step)
    · rw [State.validAddr_iff, show ((State.constructed 1).setReg 0 4).mem.cellCount = 1 from rfl,
        show uval (((State.constructed 1).setReg 0 4).reg 0) = 4 by decide, config_step] at hv
      push_cast at hv
      omega
    · rw [he] at h
      cases h

/-- PUTSP asks the same of memory as PUTS. -/
theorem witness_PutspWritesPackedCharacters :
    (at_ 0 0 [(0, 0x4000)] [(0x4000, 0x4865)]).holdsString
      (uval ((at_ 0 0 [(0, 0x4000)] [(0x4000, 0x4865)]).reg 0)) [0x4865] ∧
    ((State.constructed 1).setReg 0 4).noTerminator (uval (((State.constructed 1).setReg 0 4).reg 0)) := by
  refine ⟨⟨fun k h => ?_, by decide⟩, witness_PutsWritesTheString.2.2⟩
  obtain rfl : k = 0 := by simpa using h
  exact (by decide : (0x4865 : Word) ≠ 0 ∧ (at_ 0 0 [(0, 0x4000)] [(0x4000, 0x4865)]).memRead 0x4000 = .ok 0x4865)

theorem witness_InPromptsAndReadsALine :
    (adding.supplyLine [1, 2]).cin = (1 :: [2]) :: [] ∧ (adding.supplyLine []).cin = [] :: [] ∧ adding.cin = [] := by
  decide

theorem witness_RunStartsAtTheStartAddress :
    (State.reset.fault = none ∧ State.reset.running = false) ∧ (adding.withFailure .malformedProgram).fault ≠ none ∧
    (adding.fault = none ∧ adding.running = true) := by decide

/-- No chunk, and one chunk at the last address. -/
theorem witness_WriteProgramStoresItsChunks :
    State.reset.fault = none ∧ State.reset.running = false ∧
    (∀ k : Nat, k < ([] : List Word).length → State.reset.validAddr (0x10000 + (k : Int) * Config.step)) ∧
    (∀ k : Nat, k < [(0xF025 : Word)].length → State.reset.validAddr (0xFFFF + (k : Int) * Config.step)) := by
  refine ⟨rfl, rfl, nofun, fun k h => ?_⟩
  obtain rfl : k = 0 := by simpa using h
  decide

/-- A length that is no multiple of 16 and a character that is no digit; one good word before the malformed chunk, its
address valid, and its address the first that is not. -/
theorem witness_MalformedProgramTextFails :
    State.reset.fault = none ∧ State.reset.running = false ∧ ['1'].length % 16 ≠ 0 ∧
    (∃ c ∈ "1111000000100102".toList, c ≠ '0' ∧ c ≠ '1') ∧ malformedChunk ['1'] ∧
    malformedChunk "1111000000100102".toList ∧
    (∀ k : Nat, k < [(0xF025 : Word)].length → State.reset.validAddr (0xFFFF + (k : Int) * Config.step)) ∧
    0 < [(0xF025 : Word)].length ∧ State.reset.firstInvalidWord 0x10000 0 :=
  ⟨rfl, rfl, by decide, ⟨'2', by decide, by decide, by decide⟩, ⟨by decide, .inl (by decide)⟩,
    ⟨by decide, .inr ⟨'2', by decide, by decide, by decide⟩⟩, witness_WriteProgramStoresItsChunks.2.2.2, by decide,
    ⟨nofun, by decide⟩⟩

/-- Below memory at once, and past its end at the second word. -/
theorem witness_WriteProgramFailsAtTheFirstInvalidAddress :
    State.reset.fault = none ∧ State.reset.running = false ∧ 1 < [(0xF025 : Word), 0xF025].length ∧
    State.reset.firstInvalidWord (-1) 0 ∧ State.reset.firstInvalidWord 0xFFFF 1 := by
  refine ⟨rfl, rfl, by decide, ⟨nofun, by decide⟩, ⟨fun k h => ?_, by decide⟩⟩
  obtain rfl : k = 0 := by omega
  decide

theorem witness_WriteProgramIsRefusedAfterAFailureOrDuringARun :
    (adding.withFailure .malformedProgram).fault ≠ none ∧ adding.fault = none ∧ adding.running = true := by decide

end Sys2Proof.Tests
end

section
/-! Sign and zero extension (00_scope.md R12): what `sext` and `zext` are bit by bit and as numbers, and from these
facts the obligation about them. -/

namespace Sys2Proof.Machine

variable {n : Nat}

/-- A field whose top bit is clear extends by zeros. -/
theorem sext_of_msb_false {f : BitVec n} (h : f.msb = false) : sext f = f.setWidth 16 :=
  BitVec.signExtend_eq_setWidth_of_msb_false h

/-- The bits of a sign extension: the field's own below its width, its top bit from there on. -/
theorem getLsbD_sext (f : BitVec n) (k : Nat) :
    (sext f).getLsbD k = (decide (k < 16) && if k < n then f.getLsbD k else f.msb) :=
  f.getLsbD_signExtend

/-- A field whose top bit is set extends by ones: below the field's width the mask `0xFFFF <<< n` is clear, from the
width on it is set. -/
theorem sext_of_msb_true {f : BitVec n} (h : f.msb = true) :
    sext f = f.setWidth 16 ||| (0xFFFF#16 <<< n) := by
  refine BitVec.eq_of_getLsbD_eq fun k hk => ?_
  rw [getLsbD_sext, h, BitVec.getLsbD_or, BitVec.getLsbD_setWidth, BitVec.getLsbD_shiftLeft]
  by_cases hkn : k < n
  · simp [hk, hkn]
  · have ones : (0xFFFF#16).getLsbD (k - n) = true := by
      rw [show 0xFFFF#16 = BitVec.allOnes 16 from rfl, BitVec.getLsbD_allOnes]
      exact decide_eq_true (by omega)
    rw [ones]
    simp [hk, hkn]

/-- Sign extension keeps the two's-complement reading. -/
theorem sval_sext {f : BitVec n} (h : n ≤ 16) : sval (sext f) = f.toInt :=
  BitVec.toInt_signExtend_of_le h

/-- The bits of a zero extension to a word at least as wide as the field: the field's own below its width, 0 from there
on. -/
theorem getLsbD_zext {f : BitVec n} (h : n ≤ 16) (k : Nat) :
    (zext f).getLsbD k = (decide (k < n) && f.getLsbD k) := by
  rw [zext, BitVec.getLsbD_setWidth]
  by_cases hk : k < n
  · have inWord : k < 16 := by omega
    simp [hk, inWord]
  · simp [BitVec.getLsbD_of_ge f k (by omega)]

/-- Settles O6: the field's top bit is its sign, so each clause is the extension's pattern for that sign together with
the field's own signed reading. -/
theorem extensionFillsTheHigherBits : Obligations.ExtensionFillsTheHigherBits := by
  unfold Obligations.ExtensionFillsTheHigherBits
  intro N f _ hN
  rw [← f.msb_eq_getLsbD_last, sval_sext hN, f.toInt_eq_msb_cond]
  refine ⟨fun hclear => ⟨sext_of_msb_false hclear, ?_⟩, fun hset => ⟨sext_of_msb_true hset, ?_⟩, getLsbD_zext hN⟩
  · simp [hclear]
  · simp [hset]

end Sys2Proof.Machine
end

section
/-! What a completed instruction does to each part of the state (10_state.md R34, R36, R41-R46): one lemma over `Effect`
for each of memory, COND, the run flag, the general registers and the program counter, and what a completed step is. -/

namespace Sys2Proof.Machine

variable {s t : State} {i : Instr}

/-! ### Classification -/

/-- The sign bit of a word is its top bit, and zero is the one word whose reading is zero (R41). -/
theorem flagOf_classifies (v : Word) : FlagClassifies (flagOf v) v := by
  have zero : v = 0 ↔ v.toInt = 0 := BitVec.toInt_inj.symm
  have clear : v.getLsbD 15 = false ↔ ¬v.toInt < 0 := by
    rw [← v.msb_eq_getLsbD_last, BitVec.msb_eq_toInt, decide_eq_false_iff_not]
  simp only [flagOf, zero, clear]
  refine ⟨fun h => if_pos h, fun h => ?_, fun h => ?_⟩
  · rw [if_neg (by omega), if_pos (by omega)]
  · rw [if_neg (by omega), if_neg (by omega)]

/-- No classification is the code of "no flag". -/
theorem flagOf_ne_zero (v : Word) : flagOf v ≠ 0 := by
  obtain h | h | h := flagOf_cases v <;> rw [h] <;> decide

/-- The BR test (42_control.md R190) flag by flag. -/
theorem branchTaken_iff (n z p : Bool) (cond : Word) :
    branchTaken n z p cond = true ↔
      (n = false ∧ z = false ∧ p = false) ∨ (n = true ∧ cond.getLsbD 2 = true) ∨
        (z = true ∧ cond.getLsbD 1 = true) ∨ (p = true ∧ cond.getLsbD 0 = true) := by
  have low : cond.extractLsb' 0 3 =
      BitVec.ofBool (cond.getLsbD 2) ++ BitVec.ofBool (cond.getLsbD 1) ++ BitVec.ofBool (cond.getLsbD 0) := by
    refine BitVec.eq_of_getLsbD_eq fun k hk => ?_
    obtain rfl | rfl | rfl : k = 0 ∨ k = 1 ∨ k = 2 := by omega
    all_goals
      rw [BitVec.getLsbD_extractLsb', BitVec.getLsbD_append, BitVec.getLsbD_append]
      simp
  rw [branchTaken, low]
  generalize cond.getLsbD 2 = n', cond.getLsbD 1 = z', cond.getLsbD 0 = p'
  revert n z p n' z' p'
  decide

/-! ### The tables of what an instruction writes agree -/

/-- A flag destination is the register the instruction writes. -/
theorem writtenReg_of_flagDest {dr : RegId} (h : flagDest i = some dr) : writtenReg i = some dr := by
  cases i <;> cases h <;> rfl

/-- An instruction with a flag destination leaves the incremented program counter. -/
theorem pcAfter_of_flagDest {dr : RegId} (h : flagDest i = some dr) : pcAfter i s = s.pc := by
  cases i <;> cases h <;> rfl

/-- An instruction that accesses memory leaves the incremented program counter. -/
theorem pcAfter_of_accessesMemory (h : accessesMemory i = true) : pcAfter i s = s.pc := by
  cases i <;> cases h <;> rfl

/-! ### The effects, part by part -/

/-- The stores write through the engine, which keeps the canonical form; no other effect touches memory. -/
theorem Effect.mem_wf (e : Effect s i t) (hm : s.mem.wf) : t.mem.wf := by
  cases e with
  | st h => exact State.memWrite_wf hm h
  | sti _ h => exact State.memWrite_wf hm h
  | str h => exact State.memWrite_wf hm h
  | _ => exact hm

/-- COND classifies the flag destination, with no failure raised, or is left alone (R42). -/
theorem Effect.cond_cases (e : Effect s i t) :
    (∃ dr, flagDest i = some dr ∧ t.cond = flagOf (t.reg dr) ∧ t.fault = s.fault) ∨
      (t.cond = s.cond ∧ (flagDest i = none ∨ t.fault ≠ none)) := by
  cases e with
  | result v h => exact .inl ⟨_, h, by simp, rfl⟩
  | outOfRange _ _ => exact .inr ⟨rfl, .inr nofun⟩
  | _ => exact .inr ⟨rfl, .inl rfl⟩

/-- HALT clears the run flag, every other effect keeps it (R45). -/
theorem Effect.running_cases (e : Effect s i t) :
    i = .halt ∧ t.running = false ∨ i ≠ .halt ∧ t.running = s.running := by
  cases e with
  | halt => exact .inl ⟨rfl, rfl⟩
  | result _ h => exact .inr ⟨fun hi => (by subst hi; cases h), rfl⟩
  | outOfRange h _ => exact .inr ⟨fun hi => (by subst hi; cases h), rfl⟩
  | _ => exact .inr ⟨nofun, rfl⟩

/-- A register that is not the instruction's in R34 keeps its value. -/
theorem Effect.reg_of_not_written (e : Effect s i t) {r : RegId} (hr : writtenReg i ≠ some r) :
    t.reg r = s.reg r := by
  have other : ∀ d, writtenReg i = some d → r ≠ d := fun d hd hrd => hr (hrd ▸ hd)
  cases e with
  | result v h => exact State.writeResult_reg_of_ne s (other _ (writtenReg_of_flagDest h)) v
  | jsr => exact State.reg_setReg_of_ne s (other 7 rfl) _
  | jsrr => exact State.reg_setReg_of_ne s (other 7 rfl) _
  | getc _ => exact State.reg_setReg_of_ne _ (other 0 rfl) _
  | in_ _ => exact State.reg_setReg_of_ne _ (other 0 rfl) _
  | _ => rfl

/-- The program counter after an effect is that of R36. -/
theorem Effect.pc_eq (e : Effect s i t) : t.pc = pcAfter i s := by
  cases e with
  | result v h => exact (State.writeResult_pc ..).trans (pcAfter_of_flagDest h).symm
  | outOfRange h _ => exact (pcAfter_of_accessesMemory h).symm
  | taken h =>
    rw [pcAfter, if_pos ((branchTaken_iff ..).mp h), State.setPc_pc, State.pcRelative, sval_sext (by decide)]
  | notTaken h =>
    rw [pcAfter, if_neg fun taken => Bool.false_ne_true (h.symm.trans ((branchTaken_iff ..).mpr taken))]
  | jmp => exact trunc16_uval _
  | jsr => rw [pcAfter, State.setPc_pc, State.pcRelative11, sval_sext (by decide)]
  | @jsrr base =>
    rw [State.setPc_pc, trunc16_uval, pcAfter]
    by_cases h : base = 7
    · rw [if_pos h, h, State.reg_setReg_self]
    · rw [if_neg h, State.reg_setReg_of_ne s h]
  | _ => rfl

/-! ### A step that completes, and a run that starts -/

/-- A completed step is taken in a run: its fetch failed and the failure is latched, or its decoded instruction had its
effect. -/
theorem step_next_cases (h : step s = .next t) :
    s.inRun ∧ ((∃ k, s.fetch = .error k ∧ t = s.raise k) ∨
      ∃ ir, s.fetch = .ok ir ∧ Effect s.advancePc (decode ir) t) := by
  obtain ⟨k, _, hs⟩ | ⟨_, hs⟩ | ⟨hrun, k, hk, hs⟩ | ⟨hrun, ir, hir, hs⟩ := step_cases s <;> rw [hs] at h
  · cases h
  · cases h
  · exact ⟨hrun, .inl ⟨k, hk, (Host.Outcome.next.inj h).symm⟩⟩
  · exact ⟨hrun, .inr ⟨ir, hir, exec_effect h⟩⟩

/-- A call of `run()` that is not refused starts the run and does nothing else. -/
theorem State.run_next (h : s.run = .next t) : t = s.startRun := by
  unfold State.run at h
  split at h
  · cases h
  · split at h
    · cases h
    · exact (Host.Outcome.next.inj h).symm

/-- The load loop leaves the run flag. -/
theorem State.writeChunks_running (fuel : Nat) (s : State) (a : Int) (bits : List Char) :
    (State.writeChunks fuel s a bits).running = s.running := by
  induction fuel generalizing s a bits with
  | zero => rfl
  | succ n ih =>
    by_cases hb : bits = []
    · rw [hb, State.writeChunks_nil]
    · cases hc : chunkWord (bits.take 16) with
      | none => rw [State.writeChunks_malformed hb hc, State.raise_running]
      | some v =>
        obtain ⟨_, m, hm⟩ | ⟨ha, _⟩ := s.memWrite_cases a v
        · rw [State.writeChunks_word hb hc hm, ih, State.setMem_running]
        · rw [State.writeChunks_outside hb hc ha, State.raise_running]

theorem State.writeProgram_running {origin : Int} {bits : List Char} (h : s.writeProgram origin bits = .next t) :
    t.running = s.running := by
  obtain ⟨_, hw⟩ | ⟨_, _, hw⟩ | ⟨_, _, hw⟩ := s.writeProgram_cases origin bits <;> rw [hw] at h
  · cases h
  · cases h
  · obtain rfl := Host.Outcome.next.inj h
    exact State.writeChunks_running _ s origin bits

/-- A step clears the run flag when the word fetched is HALT's, and only then. -/
theorem step_running_cases (h : step s = .next t) :
    s.fetch.map decode = .ok .halt ∧ t.running = false ∨
      s.fetch.map decode ≠ .ok .halt ∧ t.running = s.running := by
  obtain ⟨_, ⟨k, hk, rfl⟩ | ⟨ir, hir, e⟩⟩ := step_next_cases h
  · exact .inr ⟨by simp [hk, Except.map], rfl⟩
  · simpa [hir, Except.map] using e.running_cases

end Sys2Proof.Machine
end

section
/-! What an instruction reads of COND and the run flag: from two states that differ in these two alone an instruction
that does not test COND has the same outcome, up to these two (10_state.md R43, R45). -/

namespace Sys2Proof.Machine

/-- The state with another COND and another run flag. -/
def State.withControl (s : State) (c : Word) (b : Bool) : State := { s with cond := c, running := b }

/-- `t` and `t'`, reached from `s` and `s'`, differ in COND and the run flag at most, and in each of these only by
keeping what `s` and `s'` held. -/
structure Twins (s s' t t' : State) : Prop where
  rest : t' = t.withControl t'.cond t'.running
  cond : t'.cond = t.cond ∨ (t'.cond = s'.cond ∧ t.cond = s.cond)
  running : t'.running = t.running ∨ (t'.running = s'.running ∧ t.running = s.running)

/-- COND ends the same if it began the same. -/
theorem Twins.cond_eq {s s' t t' : State} (tw : Twins s s' t t') (h : s'.cond = s.cond) : t'.cond = t.cond := by
  obtain same | ⟨kept', kept⟩ := tw.cond
  · exact same
  · rw [kept', kept, h]

/-- The run flag ends the same if it began the same. -/
theorem Twins.running_eq {s s' t t' : State} (tw : Twins s s' t t') (h : s'.running = s.running) :
    t'.running = t.running := by
  obtain same | ⟨kept', kept⟩ := tw.running
  · exact same
  · rw [kept', kept, h]

/-- Outcomes of one instruction from `s` and from `s'` that are the same but for COND and the run flag. -/
inductive TwinOutcomes (s s' : State) : StepOutcome → StepOutcome → Prop where
  | next {t t' : State} (h : Twins s s' t t') : TwinOutcomes s s' (.next t) (.next t')
  | fault (r : Fault) : TwinOutcomes s s' (.fault r) (.fault r)

variable (s : State) {c : Word} {b : Bool}

@[simp] theorem State.withControl_cond : (s.withControl c b).cond = c := rfl
@[simp] theorem State.withControl_cin : (s.withControl c b).cin = s.cin := rfl
@[simp] theorem State.withControl_reg (r : RegId) : (s.withControl c b).reg r = s.reg r := rfl
@[simp] theorem State.withControl_pcRelative (off : BitVec 9) : (s.withControl c b).pcRelative off = s.pcRelative off :=
  rfl
@[simp] theorem State.withControl_memRead (a : Int) : (s.withControl c b).memRead a = s.memRead a := rfl
@[simp] theorem State.withControl_memWrite (a : Int) (v : Word) :
    (s.withControl c b).memWrite a v = s.memWrite a v := rfl

@[simp] theorem State.withControl_scanWords (fuel : Nat) (a : Int) :
    (s.withControl c b).scanWords fuel a = s.scanWords fuel a := by
  induction fuel generalizing a with
  | zero => rfl
  | succ n ih => rw [State.scanWords_succ, State.scanWords_succ, State.withControl_memRead, ih]

@[simp] theorem State.withControl_stringAt (a : Int) : (s.withControl c b).stringAt a = s.stringAt a :=
  s.withControl_scanWords _ a

/-- A store looks at memory alone. -/
theorem State.withControl_storeWord (a : Int) (v : Word) :
    (s.withControl c b).storeWord a v = (s.storeWord a v).withControl c b := by
  unfold State.storeWord
  rw [State.withControl_memWrite]
  cases s.memWrite a v <;> rfl

/-- An update that writes neither of the two is made alike in both states. -/
theorem TwinOutcomes.keep {t : State} (hc : t.cond = s.cond) (hr : t.running = s.running) :
    TwinOutcomes s (s.withControl c b) (.next t) (.next (t.withControl c b)) :=
  .next ⟨rfl, .inr ⟨rfl, hc⟩, .inr ⟨rfl, hr⟩⟩

/-- The end of a flag instruction writes the same COND in both states. -/
theorem TwinOutcomes.result (dr : RegId) (v : Word) :
    TwinOutcomes s (s.withControl c b) (.next (s.writeResult dr v)) (.next ((s.withControl c b).writeResult dr v)) :=
  .next ⟨rfl, .inl rfl, .inr ⟨rfl, rfl⟩⟩

/-- The end of a load writes the same COND in both states, or keeps both. -/
theorem TwinOutcomes.load (dr : RegId) (r : Except Failure Word) :
    TwinOutcomes s (s.withControl c b) (.next (s.loadResult dr r)) (.next ((s.withControl c b).loadResult dr r)) := by
  cases r with
  | ok v => exact .result s dr v
  | error k => exact .keep s rfl rfl

/-- A store writes neither of the two. -/
theorem TwinOutcomes.store (a : Int) (v : Word) :
    TwinOutcomes s (s.withControl c b) (.next (s.storeWord a v)) (.next ((s.withControl c b).storeWord a v)) := by
  obtain ⟨_, _, hcond, hrunning, _⟩ := s.storeWord_frame a v
  rw [s.withControl_storeWord]
  exact .keep s hcond hrunning

/-- Twin states have twin outcomes under every instruction; under BR, which tests COND, if COND is the same. -/
theorem exec_twinOutcomes (i : Instr) (h : (∀ n z p off, i ≠ .br n z p off) ∨ c = s.cond) :
    TwinOutcomes s (s.withControl c b) (exec i s) (exec i (s.withControl c b)) := by
  cases i with
  | br n z p off =>
    obtain h | rfl := h
    · exact absurd rfl (h n z p off)
    · cases hb : branchTaken n z p s.cond <;> simp only [exec, execBr, State.withControl_cond, hb]
      · exact .keep s rfl rfl
      · exact .keep (t := s.setPc (s.pcRelative off)) s rfl rfl
  | add | addi | and | andi | not | lea => exact .result s _ _
  | ld | ldr | ldi => exact .load s _ _
  | st | str => exact .store s _ _
  | sti sr off =>
    simp only [exec, execSti, State.withControl_pcRelative, State.withControl_memRead]
    cases s.memRead (s.pcRelative off) with
    | ok p => exact .store s _ _
    | error k => exact .keep s rfl rfl
  | puts | putsp =>
    simp only [exec, execPuts, execPutsp, State.withControl_reg, State.withControl_stringAt]
    cases s.stringAt (uval (s.reg 0)) <;> exact .keep s rfl rfl
  | getc | in_ =>
    simp only [exec, execGetc, execIn, State.consoleReadLine, State.consoleWrite_cin, State.withControl_cin]
    match s.cin with
    | [] => exact .fault _
    | [] :: _ => exact .keep s rfl rfl
    | (_ :: _) :: _ => exact .keep s rfl rfl
  | halt => exact .next ⟨rfl, .inr ⟨rfl, rfl⟩, .inl rfl⟩
  | jmp | jsr | jsrr | rti | res | out | trap => exact .keep s rfl rfl

end Sys2Proof.Machine
end

section
/-! The statements about the state (10_state.md): its invariant, the flags, the run flag, the registers and the program
counter. -/

namespace Sys2Proof.Machine

/-- Settles O17: memory at reset is that of a fresh construction, and COND is 0. -/
theorem invariantHoldsAtReset : Obligations.InvariantHoldsAtReset :=
  ⟨Memory.constructed_wf _, .inl rfl⟩

/-- Settles O18: the canonical form is kept by every effect, and COND is the old one or a classification. -/
theorem stepKeepsTheInvariant : Obligations.StepKeepsTheInvariant := by
  rintro s t ⟨hmem, hcond⟩ h
  obtain ⟨_, ⟨k, _, rfl⟩ | ⟨ir, _, e⟩⟩ := step_next_cases h
  · exact ⟨hmem, hcond⟩
  · refine ⟨e.mem_wf hmem, ?_⟩
    obtain ⟨dr, _, hflag, _⟩ | ⟨hkept, _⟩ := e.cond_cases
    · obtain hp | hz | hn := flagOf_cases (t.reg dr)
      · exact .inr (.inl (hflag.trans hp))
      · exact .inr (.inr (.inl (hflag.trans hz)))
      · exact .inr (.inr (.inr (hflag.trans hn)))
    · rw [State.condLegal, hkept]
      exact hcond

/-- Settles O20: the first two branches of a step. -/
theorem noStepAfterAFailureOrOutsideARun : Obligations.NoStepAfterAFailureOrOutsideARun :=
  ⟨fun s k hf => by rw [step, hf], fun s hf hr => by simp [step, hf, hr]⟩

/-- Settles O21: HALT alone has an effect on the run flag, and twin outcomes show that no other instruction reads it. -/
theorem onlyRunAndHaltWriteTheRunFlag : Obligations.OnlyRunAndHaltWriteTheRunFlag := by
  refine ⟨rfl, fun s t h => State.run_next h ▸ rfl, fun s t _ _ => State.writeProgram_running,
    fun i s t h => (exec_effect h).running_cases, fun s t => step_running_cases, fun _ _ => rfl, fun s t hr h => ?_,
    fun i s b hi => ?_⟩
  · obtain ⟨⟨hrunning, _⟩, _⟩ := step_next_cases h
    exact Bool.false_ne_true (hr.symm.trans hrunning)
  · have twins := exec_twinOutcomes s (b := b) i (.inr rfl)
    change exec i (s.withControl s.cond b) = _
    generalize exec i s = x, hx' : exec i (s.withControl s.cond b) = x' at twins ⊢
    cases twins with
    | fault r => rfl
    | @next t t' tw =>
      obtain ⟨hhalt, _⟩ | ⟨_, hrunning⟩ := (exec_effect hx').running_cases
      · exact absurd hhalt hi
      · rw [tw.rest, tw.cond_eq rfl, hrunning]
        rfl

/-- Settles O22: the two ways an effect treats COND. -/
theorem flagsAreWrittenOnlyByFlagInstructions : Obligations.FlagsAreWrittenOnlyByFlagInstructions := by
  intro i s t hs h
  obtain ⟨d, hd, hflag, hfault⟩ | ⟨hkept, hnone⟩ := (exec_effect h).cond_cases
  · refine ⟨fun dr hdr _ => ?_, fun hno => ?_⟩
    · obtain rfl := Option.some.inj (hd.symm.trans hdr)
      rw [hflag]
      exact flagOf_classifies _
    · simp [hd, hfault, hs] at hno
  · refine ⟨fun dr hdr ht => ?_, fun _ => hkept⟩
    simp [hdr, ht] at hnone

/-- Settles O23: states that differ in COND alone have twin outcomes. -/
theorem onlyBrReadsTheFlags : Obligations.OnlyBrReadsTheFlags := by
  intro i s t c hbr h
  have twins := exec_twinOutcomes s (c := c) (b := s.running) i (.inl hbr)
  rw [h] at twins
  change ∃ t', exec i (s.withControl c s.running) = .next t' ∧ _
  generalize exec i (s.withControl c s.running) = x' at twins
  cases twins with
  | @next _ t' tw =>
    refine ⟨t', rfl, ?_, tw.cond⟩
    rw [tw.rest, tw.running_eq rfl]
    rfl

/-- Settles O24: a step keeps COND or writes one of the three codes, and `run()` does not write it. -/
theorem flagsNeverReturnToNone : Obligations.FlagsNeverReturnToNone := by
  refine ⟨fun s t hs h => ?_, fun s t h => State.run_next h ▸ rfl⟩
  obtain ⟨_, ⟨k, _, rfl⟩ | ⟨ir, _, e⟩⟩ := step_next_cases h
  · exact hs
  · obtain ⟨dr, _, hflag, _⟩ | ⟨hkept, _⟩ := e.cond_cases
    · exact hflag ▸ flagOf_ne_zero _
    · exact hkept ▸ hs

/-- Settles O25: an effect writes no register but the instruction's own. -/
theorem registersAreWrittenOnlyByTheirInstructions : Obligations.RegistersAreWrittenOnlyByTheirInstructions :=
  fun _ _ _ _ h hr => (exec_effect h).reg_of_not_written hr

/-- Settles O30: a failed fetch raises with the program counter as it was, and an effect leaves what R36 gives. -/
theorem programCounterAfterEachStep : Obligations.ProgramCounterAfterEachStep := by
  intro s t h
  obtain ⟨_, ⟨k, hk, rfl⟩ | ⟨ir, hir, e⟩⟩ := step_next_cases h
  · exact ⟨fun _ _ => rfl, fun ir hir => by cases hk.symm.trans hir⟩
  · refine ⟨fun k hk => (by cases hk.symm.trans hir), fun ir' hir' => ?_⟩
    obtain rfl := Except.ok.inj (hir.symm.trans hir')
    exact e.pc_eq

end Sys2Proof.Machine
end

section
/-! The bits of the arena under an engine access (20_memory.md R66-R75): what a read collects and what a write places,
bit by bit, for values in one cell and over two. -/

namespace Sys2Proof.Machine

/-! ### Bits of the arena and bits of a cell -/

/-- Bit `o` of cell `k`, counted from the most significant one, is arena bit `64 * k + o` (R62). -/
theorem Memory.bit_of_cell (m : Memory) {g k o : Nat} (hg : g = 64 * k + o) (ho : o < 64) :
    m.bit g = (m.cellAt k).getLsbD (63 - o) := by
  have hk : g / 64 = k := by omega
  have hm : g % 64 = o := by omega
  rw [Memory.bit, hk, hm]

/-- A range `[lo, hi)` of a cell, cut out and moved to the bottom (R71, R72): bit by bit the arena's. -/
theorem Memory.cellRange_getLsbD (m : Memory) (k lo hi : Nat) (h : lo ≤ hi ∧ hi ≤ 64) (j : Nat) :
    ((m.cellAt k &&& ~~~generateMask 64 lo hi h) >>> (64 - hi)).getLsbD j =
      (decide (j < hi - lo) && m.bit (64 * k + (hi - 1 - j))) := by
  rw [BitVec.getLsbD_ushiftRight, BitVec.getLsbD_and, BitVec.getLsbD_not]
  by_cases hj : j < hi - lo
  · have inCell : 64 - hi + j < 64 := by omega
    have inRange : 64 - hi ≤ 64 - hi + j ∧ 64 - hi + j < 64 - lo := by omega
    have hpos : 63 - (hi - 1 - j) = 64 - hi + j := by omega
    rw [generateMask_getLsbD _ _ _ h _ inCell, m.bit_of_cell rfl (by omega), hpos]
    simp [hj, inCell, inRange]
  · by_cases inCell : 64 - hi + j < 64
    · rw [generateMask_getLsbD _ _ _ h _ inCell, decide_eq_false (p := _ ∧ _) (by omega), decide_eq_false hj]
      simp
    · simp [hj, inCell]

/-- Two parts of a value, the lower one of `r` bits, put together by a shift and a sum. -/
theorem shiftLeft_add_getLsbD {n : Nat} (hi lo : BitVec n) (r : Nat) (hlo : ∀ k, r ≤ k → lo.getLsbD k = false)
    (k : Nat) : (hi <<< r + lo).getLsbD k = if k < r then lo.getLsbD k else decide (k < n) && hi.getLsbD (k - r) := by
  have disjoint : hi <<< r &&& lo = 0#n := by
    refine BitVec.eq_of_getLsbD_eq fun j _ => ?_
    rw [BitVec.getLsbD_and, BitVec.getLsbD_shiftLeft]
    by_cases hj : j < r
    · simp [hj]
    · simp [hlo j (by omega)]
  rw [BitVec.add_eq_or_of_and_eq_zero _ _ disjoint, BitVec.getLsbD_or, BitVec.getLsbD_shiftLeft]
  by_cases hk : k < r
  · simp [hk]
  · simp [hk, hlo k (by omega)]

/-- The arena after a range of one cell is cleared and filled, as both halves of a write do (R67, R68). -/
theorem Memory.bit_setCell_fill (m : Memory) (k : Nat) (x : CellValue) (lo hi : Nat) (h : lo ≤ hi ∧ hi ≤ 64)
    (hx : ∀ j, j < 64 → ¬(64 - hi ≤ j ∧ j < 64 - lo) → x.getLsbD j = false) (g : Nat) :
    (m.setCell k ((m.cellAt k &&& generateMask 64 lo hi h) + x)).bit g =
      if 64 * k + lo ≤ g ∧ g < 64 * k + hi then x.getLsbD (64 * k + 63 - g) else m.bit g := by
  rw [Memory.bit_setCell]
  by_cases hk : g / 64 = k
  · have hpos : 63 - g % 64 = 64 * k + 63 - g := by omega
    have range : (64 - hi ≤ 64 * k + 63 - g ∧ 64 * k + 63 - g < 64 - lo) ↔ 64 * k + lo ≤ g ∧ g < 64 * k + hi := by
      omega
    rw [if_pos hk, hpos, fill_getLsbD _ _ _ _ h hx _ (by omega), Memory.bit, hk, hpos]
    simp only [range]
  · rw [if_neg hk, if_neg (by omega)]

/-! ### Reads and writes of an accepted address -/

/-- A read collects the arena's bits from its address on, most significant first (R73). -/
theorem readBits_getLsbD {I : Nat} (hI : 2 ≤ I ∧ I ≤ 64) (m : Memory) (b : Nat) {j : Nat} (hj : j < I) :
    (readBits I hI m b).getLsbD (I - 1 - j) = m.bit (b + j) := by
  unfold readBits
  dsimp only
  split
  next hs =>
    rw [Nat.sub_sub, Nat.add_comm I, BitVec.getLsbD_setWidth, m.cellRange_getLsbD, decide_eq_true (by omega),
      decide_eq_true (by omega), Bool.true_and, Bool.true_and]
    exact congrArg m.bit (by omega)
  next hs =>
    rw [shiftLeft_add_getLsbD _ _ _ fun k hk => ?_]
    · split
      next lower =>
        rw [BitVec.getLsbD_setWidth, m.cellRange_getLsbD, decide_eq_true (by omega), decide_eq_true (by omega),
          Bool.true_and, Bool.true_and]
        exact congrArg m.bit (by omega)
      next upper =>
        rw [BitVec.getLsbD_setWidth, ← BitVec.ushiftRight_zero (_ &&& _), m.cellRange_getLsbD (hi := 64),
          decide_eq_true (by omega), decide_eq_true (by omega), decide_eq_true (by omega)]
        exact congrArg m.bit (by omega)
    · have beyond : ¬k < b % 64 + I - 64 - 0 := by omega
      rw [BitVec.getLsbD_setWidth, m.cellRange_getLsbD, decide_eq_false beyond, Bool.false_and, Bool.and_false]

/-- A value moved up by `n` bits of a cell, as an unsplit write and the second half of a split one place it (R67,
R68). -/
theorem setWidth_shiftLeft_getLsbD {I : Nat} (v : BitVec I) (n : Nat) {j : Nat} (hj : j < 64) :
    (v.setWidth 64 <<< n).getLsbD j = (decide (n ≤ j) && v.getLsbD (j - n)) := by
  have hjn : j - n < 64 := by omega
  rw [BitVec.getLsbD_shiftLeft, BitVec.getLsbD_setWidth, decide_eq_true hj, decide_eq_true hjn, Bool.true_and,
    Bool.true_and, ← decide_not]
  simp only [Nat.not_lt]

/-- A write places the value's bits from its address on, most significant first, and leaves every other bit (R69). -/
theorem writeBits_bit {I : Nat} (hI : 2 ≤ I ∧ I ≤ 64) (m : Memory) (b : Nat) (v : BitVec I) (g : Nat) :
    (writeBits I hI m b v).bit g = if b ≤ g ∧ g < b + I then v.getLsbD (b + I - 1 - g) else m.bit g := by
  unfold writeBits
  dsimp only
  split
  next hs =>
    rw [m.bit_setCell_fill]
    · have range : (64 * (b / 64) + b % 64 ≤ g ∧ g < 64 * (b / 64) + (b % 64 + I)) ↔ b ≤ g ∧ g < b + I := by omega
      refine if_ctx_congr range (fun hg => ?_) fun _ => rfl
      rw [setWidth_shiftLeft_getLsbD _ _ (by omega), decide_eq_true (by omega), Bool.true_and]
      exact congrArg v.getLsbD (by omega)
    · intro j hj outside
      rw [setWidth_shiftLeft_getLsbD _ _ hj]
      by_cases above : 64 - I - b % 64 ≤ j
      · rw [BitVec.getLsbD_of_ge v _ (by omega), Bool.and_false]
      · rw [decide_eq_false above, Bool.false_and]
  next hs =>
    rw [Memory.bit_setCell_fill, m.bit_setCell_fill]
    · by_cases second : 64 * (b / 64 + 1) + 0 ≤ g ∧ g < 64 * (b / 64 + 1) + (b % 64 + I - 64)
      · rw [if_pos second, if_pos (by omega), setWidth_shiftLeft_getLsbD _ _ (by omega), decide_eq_true (by omega),
          Bool.true_and, BitVec.getLsbD_setWidth, decide_eq_true (by omega), Bool.true_and]
        exact congrArg v.getLsbD (by omega)
      · rw [if_neg second]
        have range : (64 * (b / 64) + b % 64 ≤ g ∧ g < 64 * (b / 64) + 64) ↔ b ≤ g ∧ g < b + I := by omega
        refine if_ctx_congr range (fun hg => ?_) fun _ => rfl
        rw [BitVec.getLsbD_setWidth, decide_eq_true (by omega), Bool.true_and, BitVec.getLsbD_ushiftRight]
        exact congrArg v.getLsbD (by omega)
    · intro j hj outside
      rw [BitVec.getLsbD_setWidth, BitVec.getLsbD_ushiftRight, BitVec.getLsbD_of_ge v _ (by omega), Bool.and_false]
    · intro j hj outside
      rw [setWidth_shiftLeft_getLsbD _ _ hj, decide_eq_false (by omega), Bool.false_and]

/-- What a read answers is fixed by the arena's bits from its address on. -/
theorem readBits_eq_iff {I : Nat} (hI : 2 ≤ I ∧ I ≤ 64) (m : Memory) (b : Nat) (x : BitVec I) :
    readBits I hI m b = x ↔ ∀ j, j < I → m.bit (b + j) = x.getLsbD (I - 1 - j) := by
  refine ⟨fun h j hj => h ▸ (readBits_getLsbD hI m b hj).symm, fun h => BitVec.eq_of_getLsbD_eq fun k hk => ?_⟩
  have hpos : I - 1 - (I - 1 - k) = k := by omega
  have hj : I - 1 - k < I := by omega
  rw [← hpos, readBits_getLsbD hI m b hj, h _ hj]

theorem readBits_writeBits_self {I : Nat} (hI : 2 ≤ I ∧ I ≤ 64) (m : Memory) (b : Nat) (v : BitVec I) :
    readBits I hI (writeBits I hI m b v) b = v := by
  rw [readBits_eq_iff]
  intro j hj
  rw [writeBits_bit, if_pos (by omega)]
  exact congrArg v.getLsbD (by omega)

theorem readBits_writeBits_of_disjoint {I : Nat} (hI : 2 ≤ I ∧ I ≤ 64) (m : Memory) {b c : Nat} (v : BitVec I)
    (h : c + I ≤ b ∨ b + I ≤ c) : readBits I hI (writeBits I hI m b v) c = readBits I hI m c := by
  rw [readBits_eq_iff]
  intro j hj
  rw [writeBits_bit, if_neg (by omega), readBits_getLsbD hI m c hj]

/-! ### The accesses with their range check -/

variable {I : Nat} {hI : 2 ≤ I ∧ I ≤ 64} {m m' : Memory} {b c : Int} {v x : BitVec I}

theorem engineRead_eq_ok_iff : engineRead I hI m b = .ok x ↔ m.accepts I b ∧ readBits I hI m b.toNat = x := by
  obtain ⟨h, he⟩ | ⟨h, he⟩ := engineRead_cases (hI := hI) (m := m) (b := b) <;> rw [he]
  · exact ⟨fun hx => ⟨h, Except.ok.inj hx⟩, fun ⟨_, hx⟩ => congrArg Except.ok hx⟩
  · exact ⟨nofun, fun ⟨h', _⟩ => absurd h' h⟩

theorem engineWrite_eq_ok_iff :
    engineWrite I hI m b v = .ok m' ↔ m.accepts I b ∧ writeBits I hI m b.toNat v = m' := by
  obtain ⟨h, he⟩ | ⟨h, he⟩ := engineWrite_cases (hI := hI) (m := m) (b := b) (v := v) <;> rw [he]
  · exact ⟨fun hm => ⟨h, Except.ok.inj hm⟩, fun ⟨_, hm⟩ => congrArg Except.ok hm⟩
  · exact ⟨nofun, fun ⟨h', _⟩ => absurd h' h⟩

/-- Inside the arena both operations complete (R65). -/
theorem engine_ok_of_accepts (h : m.accepts I b) :
    (∃ x, engineRead I hI m b = .ok x) ∧ ∃ m', engineWrite I hI m b v = .ok m' :=
  ⟨⟨_, engineRead_eq_ok_iff.mpr ⟨h, rfl⟩⟩, _, engineWrite_eq_ok_iff.mpr ⟨h, rfl⟩⟩

/-- Outside it both fail with the address (R65). -/
theorem engine_error_of_not_accepts (h : ¬m.accepts I b) :
    engineRead I hI m b = .error (.addressOutOfRange b) ∧ engineWrite I hI m b v = .error (.addressOutOfRange b) :=
  ⟨if_neg h, if_neg h⟩

theorem engineWrite_cellCount (h : engineWrite I hI m b v = .ok m') : m'.cellCount = m.cellCount := by
  obtain ⟨_, rfl⟩ := engineWrite_eq_ok_iff.mp h
  exact writeBits_cellCount hI m _ v

/-- A write does not move the bounds of the arena. -/
theorem engineWrite_accepts (h : engineWrite I hI m b v = .ok m') : m'.accepts I c ↔ m.accepts I c := by
  rw [Memory.accepts, Memory.accepts, Memory.maxAddress, Memory.maxAddress, engineWrite_cellCount h]

/-- The round trip (R74). -/
theorem engineRead_engineWrite_self (h : engineWrite I hI m b v = .ok m') : engineRead I hI m' b = .ok v := by
  have accepted := engineWrite_accepts (c := b) h
  obtain ⟨hb, rfl⟩ := engineWrite_eq_ok_iff.mp h
  exact engineRead_eq_ok_iff.mpr ⟨accepted.mpr hb, readBits_writeBits_self hI m _ v⟩

/-- An access at least `I` bits away answers as before the write, success or failure (R75). -/
theorem engineRead_engineWrite_of_disjoint (h : engineWrite I hI m b v = .ok m')
    (hd : c + (I : Int) ≤ b ∨ b + (I : Int) ≤ c) : engineRead I hI m' c = engineRead I hI m c := by
  have accepted := engineWrite_accepts (c := c) h
  obtain ⟨⟨hb, _⟩, rfl⟩ := engineWrite_eq_ok_iff.mp h
  obtain ⟨hc, he⟩ | ⟨hc, he⟩ := engineRead_cases (hI := hI) (m := m) (b := c) <;> rw [he]
  · exact engineRead_eq_ok_iff.mpr
      ⟨accepted.mpr hc, readBits_writeBits_of_disjoint hI m v (by have := hc.1; omega)⟩
  · exact if_neg fun h' => hc (accepted.mp h')

/-! ### Words -/

/-- A stored word is what the next read of its address returns. -/
theorem State.memRead_of_memWrite {s t : State} {a : Int} {w : Word} (h : s.memWrite a w = .ok t.mem) :
    t.memRead a = .ok w :=
  engineRead_engineWrite_self h

/-- The four words of a cell are its four 16-bit slices, the lowest address most significant (R80). -/
theorem State.memRead_cell (s : State) {k i : Nat} (hk : k < s.mem.cellCount) (hi : i < 4) :
    s.memRead (4 * k + i) = .ok ((s.mem.cellAt k).extractLsb' (48 - 16 * i) 16) := by
  refine engineRead_eq_ok_iff.mpr ⟨(s.validAddr_iff _).mpr (by omega), (readBits_eq_iff ..).mpr fun j hj => ?_⟩
  rw [bitAddr_eq, s.mem.bit_of_cell (k := k) (o := 16 * i + j) (by omega) (by omega), BitVec.getLsbD_extractLsb',
    decide_eq_true (by omega), Bool.true_and]
  exact congrArg (s.mem.cellAt k).getLsbD (by omega)

end Sys2Proof.Machine
end

section
/-! The mask as an integer (20_memory.md R63), and the listed cells of a memory in canonical form (log entry 29). -/

namespace Sys2Proof.Machine

/-! ### Masks -/

/-- The complement of a mask is a run of ones at its range: `2 ^ (hi - lo) - 1` moved up to the range's lowest bit. -/
theorem not_generateMask_toNat_eq_shift (width lo hi : Nat) (h : lo ≤ hi ∧ hi ≤ width) :
    (~~~generateMask width lo hi h).toNat = (2 ^ (hi - lo) - 1) <<< (width - hi) := by
  refine Nat.eq_of_testBit_eq fun k => ?_
  rw [BitVec.testBit_toNat, BitVec.getLsbD_not, Nat.testBit_shiftLeft, Nat.testBit_two_pow_sub_one]
  by_cases hk : k < width
  · have range : (width - hi ≤ k ∧ k < width - lo) ↔ width - hi ≤ k ∧ k - (width - hi) < hi - lo := by omega
    rw [generateMask_getLsbD _ _ _ h _ hk, Bool.not_not, decide_eq_true hk, Bool.true_and, ← Bool.decide_and]
    exact decide_eq_decide.mpr range
  · have beyond : ¬k - (width - hi) < hi - lo := by omega
    rw [decide_eq_false hk, decide_eq_false beyond, Bool.false_and, Bool.and_false]

theorem not_generateMask_toNat (width lo hi : Nat) (h : lo ≤ hi ∧ hi ≤ width) :
    (~~~generateMask width lo hi h).toNat = 2 ^ (width - lo) - 2 ^ (width - hi) := by
  have hexp : hi - lo + (width - hi) = width - lo := by omega
  rw [not_generateMask_toNat_eq_shift, Nat.shiftLeft_eq, Nat.sub_mul, ← Nat.pow_add, hexp, Nat.one_mul]

theorem generateMask_toNat (width lo hi : Nat) (h : lo ≤ hi ∧ hi ≤ width) :
    (generateMask width lo hi h).toNat = (2 ^ width - 1) - (2 ^ (width - lo) - 2 ^ (width - hi)) := by
  rw [← not_generateMask_toNat width lo hi h, ← BitVec.toNat_not, BitVec.not_not]

/-- An empty range clears no bit. -/
theorem generateMask_self (width lo : Nat) (h : lo ≤ lo ∧ lo ≤ width) :
    generateMask width lo lo h = BitVec.allOnes width := by
  rw [← BitVec.toNat_inj, generateMask_toNat, Nat.sub_self, BitVec.toNat_allOnes, Nat.sub_zero]

/-! ### The canonical form -/

/-- With rising indices looking up an entry's index gives that entry's value: no entry before it has the index. -/
theorem lookupCell_of_mem {l : List (Nat × CellValue)} (hl : l.Pairwise (fun a b => a.1 < b.1)) {e : Nat × CellValue}
    (he : e ∈ l) : lookupCell e.1 l = e.2 := by
  induction l with
  | nil => cases he
  | cons x rest ih =>
    obtain ⟨hx, hrest⟩ := List.pairwise_cons.mp hl
    obtain rfl | he := List.mem_cons.mp he
    · exact if_pos rfl
    · rw [lookupCell, if_neg (hx e he).ne]
      exact ih hrest he

theorem mem_of_lookupCell {k : Nat} {l : List (Nat × CellValue)} (h : lookupCell k l ≠ unlistedCell) :
    (k, lookupCell k l) ∈ l := by
  induction l with
  | nil => exact absurd rfl h
  | cons e rest ih =>
    by_cases hk : e.1 = k
    · rw [lookupCell, if_pos hk, ← hk]
      exact List.mem_cons_self
    · rw [lookupCell, if_neg hk] at h ⊢
      exact List.mem_cons_of_mem e (ih h)

/-- In the canonical form the entries are exactly the cells that differ from an unlisted one. -/
theorem Memory.mem_cells_iff {m : Memory} (h : m.wf) (k : Nat) (v : CellValue) :
    (k, v) ∈ m.cells ↔ m.cellAt k = v ∧ v ≠ unlistedCell := by
  refine ⟨fun he => ⟨lookupCell_of_mem h.1 he, (h.2 _ he).2⟩, ?_⟩
  rintro ⟨rfl, hv⟩
  exact mem_of_lookupCell hv

/-- Rising lists with the same entries are equal. -/
theorem eq_of_rising {l l' : List (Nat × CellValue)} (hl : l.Pairwise (fun a b => a.1 < b.1))
    (hl' : l'.Pairwise (fun a b => a.1 < b.1)) (h : ∀ e, e ∈ l ↔ e ∈ l') : l = l' := by
  have distinct : ∀ {a b : Nat × CellValue}, a.1 < b.1 → a ≠ b := fun hlt hab => hlt.ne (congrArg Prod.fst hab)
  refine List.Perm.eq_of_pairwise (fun a b _ _ hab hba => absurd hba hab.not_gt) hl hl' ?_
  exact (List.perm_ext_iff_of_nodup (hl.imp distinct) (hl'.imp distinct)).mpr h

end Sys2Proof.Machine
end

section
/-! What a completed instruction does to memory and the console, one lemma over `Effect` for each part, and what
construction answers (20_memory.md R61). -/

namespace Sys2Proof.Machine

variable {s t : State} {i : Instr}

/-- Memory is left, or one of the three stores wrote a word of it (R218). -/
theorem Effect.mem_cases (e : Effect s i t) :
    t.mem = s.mem ∨
      (((∃ r off, i = .st r off) ∨ (∃ r off, i = .sti r off) ∨ ∃ r b off, i = .str r b off) ∧
        ∃ a v, s.memWrite a v = .ok t.mem) := by
  cases e with
  | st h => exact .inr ⟨.inl ⟨_, _, rfl⟩, _, _, h⟩
  | sti _ h => exact .inr ⟨.inr (.inl ⟨_, _, rfl⟩), _, _, h⟩
  | str h => exact .inr ⟨.inr (.inr ⟨_, _, _, rfl⟩), _, _, h⟩
  | _ => exact .inl rfl

/-- Output is left, or the instruction is a service that writes (43_trap.md R218, R221). -/
theorem Effect.cout_cases (e : Effect s i t) :
    t.cout = s.cout ∨ i = .out ∨ i = .puts ∨ i = .putsp ∨ i = .in_ := by
  cases e with
  | out => exact .inr (.inl rfl)
  | puts _ => exact .inr (.inr (.inl rfl))
  | putsp _ => exact .inr (.inr (.inr (.inl rfl)))
  | in_ _ => exact .inr (.inr (.inr (.inr rfl)))
  | inEmpty _ => exact .inr (.inr (.inr (.inr rfl)))
  | _ => exact .inl rfl

/-- GETC and IN consume one line, every other effect leaves the input (43_trap.md R221; D11, log entry 11). -/
theorem Effect.cin_cases (e : Effect s i t) :
    ((i = .getc ∨ i = .in_) ∧ ∃ line, s.cin = line :: t.cin) ∨ (i ≠ .getc ∧ i ≠ .in_ ∧ t.cin = s.cin) := by
  cases e with
  | getc h => exact .inl ⟨.inl rfl, _, h⟩
  | in_ h => exact .inl ⟨.inr rfl, _, h⟩
  | inEmpty h => exact .inl ⟨.inr rfl, _, h⟩
  | result _ h => exact .inr ⟨fun hi => (by subst hi; cases h), fun hi => (by subst hi; cases h), rfl⟩
  | outOfRange h _ => exact .inr ⟨fun hi => (by subst hi; cases h), fun hi => (by subst hi; cases h), rfl⟩
  | _ => exact .inr ⟨nofun, nofun, rfl⟩

/-! ### Construction -/

theorem engineNew_of_bad {n w : Int} (h : n ≤ 0 ∨ w < 2 ∨ 64 < w) : engineNew n w = .error .invalidConfiguration :=
  if_pos h

theorem engineNew_of_good {n w : Int} (hn : 0 < n) (hw : 2 ≤ w) (hw' : w ≤ 64) :
    engineNew n w = .ok { cellCount := n.toNat, cells := [] } :=
  if_neg (by omega)

theorem construct_of_bad {n : Int} (h : n ≤ 0) : construct n = .error .invalidConfiguration := by
  rw [construct, engineNew_of_bad (.inl h)]

theorem construct_of_good {n : Int} (h : 0 < n) : construct n = .ok (State.constructed n.toNat) := by
  rw [construct, engineNew_of_good h (by decide) (by decide)]
  rfl

end Sys2Proof.Machine
end

section
/-! The statements about memory (20_memory.md): masks, the engine's accesses, words and cells, construction, and what
instructions do to memory. -/

namespace Sys2Proof.Machine

/-- Settles O7: the complement is a run of ones at the range, and the mask is what is left of all ones. -/
theorem maskClearsExactlyItsRange : Obligations.MaskClearsExactlyItsRange := by
  intro width lo hi h
  refine ⟨generateMask_toNat width lo hi h, not_generateMask_toNat width lo hi h, ?_⟩
  rintro rfl
  exact generateMask_self width lo h

/-- Settles O8: the range check decides both operations, and accepts `MAX_ADDR` as soon as there is a cell. -/
theorem accessFailsExactlyOutsideTheArena : Obligations.AccessFailsExactlyOutsideTheArena := by
  intro I hI m b v
  refine ⟨fun outside => engine_error_of_not_accepts (by omega), fun h0 hmax => ⟨engine_ok_of_accepts ⟨h0, hmax⟩, ?_⟩,
    engine_error_of_not_accepts (by omega), fun hcells => engine_ok_of_accepts ⟨?_, le_rfl⟩⟩
  · rw [Memory.maxAddress] at hmax
    omega
  · rw [Memory.maxAddress]
    omega

/-- Settles O9: a write that completes is `writeBits`, whose bits are known. -/
theorem writePlacesItsBits : Obligations.WritePlacesItsBits := by
  intro I hI m m' b v h
  have hcells := engineWrite_cellCount h
  obtain ⟨_, rfl⟩ := engineWrite_eq_ok_iff.mp h
  refine ⟨fun j hj => ?_, fun g hg => ?_, hcells⟩ <;> rw [Int.toNat_natCast, writeBits_bit]
  · rw [if_pos (by omega)]
    exact congrArg v.getLsbD (by omega)
  · exact if_neg (by omega)

/-- Settles O10: a read that completes is `readBits`, whose bits are known. -/
theorem readReturnsTheArenaBits : Obligations.ReadReturnsTheArenaBits := by
  intro I hI m b x h j hj
  obtain ⟨_, rfl⟩ := engineRead_eq_ok_iff.mp h
  exact readBits_getLsbD hI m _ hj

/-- Settles O12: the bits read lie outside the bits written. -/
theorem distantWritesDoNotDisturb : Obligations.DistantWritesDoNotDisturb :=
  fun _ _ _ _ _ _ _ => engineRead_engineWrite_of_disjoint

/-- Settles O11: the round trip of the first write, which a later one elsewhere does not disturb. -/
theorem readAfterWriteReturnsTheValue : Obligations.ReadAfterWriteReturnsTheValue := by
  intro I hI m b v h0 hmax
  obtain ⟨_, m', hw⟩ := engine_ok_of_accepts (hI := hI) (v := v) ⟨h0, hmax⟩
  refine ⟨m', hw, engineRead_engineWrite_self hw, fun c u m2 hd hw2 => ?_⟩
  rw [engineRead_engineWrite_of_disjoint hw2 hd.symm, engineRead_engineWrite_self hw]

/-- Settles O13: the cell is the sum of its four slices. -/
theorem cellHoldsFourWordsHighFirst : Obligations.CellHoldsFourWordsHighFirst := by
  intro s k hk
  refine ⟨_, _, _, _, by simpa using s.memRead_cell hk (i := 0) (by decide), s.memRead_cell hk (i := 1) (by decide),
    s.memRead_cell hk (i := 2) (by decide), s.memRead_cell hk (i := 3) (by decide), ?_⟩
  simp only [BitVec.extractLsb'_toNat, Nat.shiftRight_eq_div_pow]
  omega

/-- Settles O14: a word access completes exactly on a valid address, and these are the addresses below four a cell. -/
theorem wordAddressesAreFourPerCell : Obligations.WordAddressesAreFourPerCell := by
  intro s a v
  refine ⟨fun h0 hlast => engine_ok_of_accepts ((s.validAddr_iff a).mpr ⟨h0, hlast⟩), fun outside => ?_⟩
  rw [← bitAddr_eq]
  exact engine_error_of_not_accepts (mt (s.validAddr_iff a).mp (by omega))

/-- Settles O15: canonical forms with the same cells list the same entries, in the one rising order. -/
theorem equalMemoriesAreEqualData : Obligations.EqualMemoriesAreEqualData := by
  rintro ⟨n, l⟩ ⟨n', l'⟩ hm hm' hn hcells
  have entries : ∀ e, e ∈ l ↔ e ∈ l' := fun (k, v) =>
    (Memory.mem_cells_iff hm k v).trans (hcells k ▸ (Memory.mem_cells_iff hm' k v).symm)
  obtain rfl : n = n' := hn
  exact congrArg (Memory.mk n) (eq_of_rising hm.1 hm'.1 entries)

/-- Settles O16: both constructions are one check of the parameters. -/
theorem constructionGivesTheResetValues : Obligations.ConstructionGivesTheResetValues :=
  ⟨fun _ _ => engineNew_of_bad,
    fun _ _ hn hw hw' => ⟨_, engineNew_of_good hn hw hw', Int.toNat_of_nonneg hn.le, fun _ => rfl⟩,
    fun _ => construct_of_bad,
    fun _ hn => ⟨_, construct_of_good hn, Int.toNat_of_nonneg hn.le, fun _ => rfl, State.constructed_reg _, rfl, rfl,
      rfl, rfl, rfl, rfl⟩,
    construct_of_good (by decide)⟩

/-- Settles O26: the effects on memory, output and input. -/
theorem onlyStoresWriteMemoryAndOnlyServicesTouchTheConsole :
    Obligations.OnlyStoresWriteMemoryAndOnlyServicesTouchTheConsole := by
  intro i s t h
  have e := exec_effect h
  refine ⟨?_, fun hst hsti hstr => ?_, fun hout hputs hputsp hin => ?_, fun hgetc hin => ?_, fun hi => ?_⟩
  · obtain hm | ⟨_, a, v, hw⟩ := e.mem_cases
    · rw [hm]
    · exact engineWrite_cellCount hw
  · obtain hm | ⟨⟨r, off, hi⟩ | ⟨r, off, hi⟩ | ⟨r, b, off, hi⟩, _⟩ := e.mem_cases
    · exact hm
    · exact absurd hi (hst r off)
    · exact absurd hi (hsti r off)
    · exact absurd hi (hstr r b off)
  · exact e.cout_cases.resolve_right (by simp [hout, hputs, hputsp, hin])
  · obtain ⟨hi, _⟩ | ⟨_, _, hcin⟩ := e.cin_cases
    · exact absurd hi (by simp [hgetc, hin])
    · exact hcin
  · obtain ⟨_, hline⟩ | ⟨hgetc, hin, _⟩ := e.cin_cases
    · exact hline
    · exact absurd hi (by simp [hgetc, hin])

/-- Settles O43: the store goes to the address the next fetch reads, and the round trip gives the word back. -/
theorem storeIsSeenByTheNextFetch : Obligations.StoreIsSeenByTheNextFetch := by
  intro sr s hpc
  have here : s.pcRelative 0 = uval s.pc := by
    rw [State.pcRelative, show sval (sext (0 : BitVec 9)) = 0 from rfl, Int.add_zero]
  obtain ⟨_, m, hw, he⟩ | ⟨hno, _⟩ := s.storeWord_cases (s.pcRelative 0) (s.reg sr)
  · refine ⟨s.setMem m, congrArg Host.Outcome.next he, rfl, ?_⟩
    rw [here] at hw
    exact State.memRead_of_memWrite hw
  · exact absurd (here ▸ hpc) hno

end Sys2Proof.Machine
end

section
/-! The formats (30_encoding.md R103), as a relation between an instruction and the words that hold its operands, and as
the slices that its decoding examines. The slices cover the complement of the mask of unexamined bits (R107), and the
encoder puts each operand into its slice. -/

namespace Sys2Proof

/-! ### Register and one-bit fields as slices -/

theorem regBits_regField (w : Word) (lo : Nat) : regBits (regField w lo) = w.extractLsb' lo 3 :=
  BitVec.eq_of_toNat_eq (regBits_toNat _)

theorem regField_eq_iff {w : Word} {lo : Nat} {r : RegId} : regField w lo = r ↔ w.extractLsb' lo 3 = regBits r :=
  ⟨fun h => h ▸ (regBits_regField w lo).symm, regField_of_bits⟩

theorem ofBool_bitField (w : Word) (k : Nat) : BitVec.ofBool (bitField w k) = w.extractLsb' k 1 := by
  refine BitVec.eq_of_getLsbD_eq fun j hj => ?_
  obtain rfl : j = 0 := by omega
  simp [bitField]

theorem bitField_eq_iff {w : Word} {k : Nat} {b : Bool} : bitField w k = b ↔ w.extractLsb' k 1 = BitVec.ofBool b := by
  rw [← ofBool_bitField, BitVec.ofBool_eq_iff_eq]

/-! ### The formats -/

/-- The fields of the word `w` hold the operands, the mode bit and the trap code of the instruction (R103). -/
def Instr.OperandsIn : Instr → Word → Prop
  | .br n z p off, w => bitField w 11 = n ∧ bitField w 10 = z ∧ bitField w 9 = p ∧ w.extractLsb' 0 9 = off
  | .add dr sr1 sr2, w | .and dr sr1 sr2, w =>
    regField w 9 = dr ∧ regField w 6 = sr1 ∧ bitField w 5 = false ∧ regField w 0 = sr2
  | .addi dr sr1 imm, w | .andi dr sr1 imm, w =>
    regField w 9 = dr ∧ regField w 6 = sr1 ∧ bitField w 5 = true ∧ w.extractLsb' 0 5 = imm
  | .ld r off, w | .st r off, w | .ldi r off, w | .sti r off, w | .lea r off, w =>
    regField w 9 = r ∧ w.extractLsb' 0 9 = off
  | .ldr r base off, w | .str r base off, w => regField w 9 = r ∧ regField w 6 = base ∧ w.extractLsb' 0 6 = off
  | .not dr sr, w => regField w 9 = dr ∧ regField w 6 = sr
  | .jsr off, w => bitField w 11 = true ∧ w.extractLsb' 0 11 = off
  | .jsrr base, w => bitField w 11 = false ∧ regField w 6 = base
  | .jmp base, w => regField w 6 = base
  | .rti, _ | .res, _ => True
  | .getc, w => w.extractLsb' 0 8 = Config.tvGetc
  | .out, w => w.extractLsb' 0 8 = Config.tvOut
  | .puts, w => w.extractLsb' 0 8 = Config.tvPuts
  | .in_, w => w.extractLsb' 0 8 = Config.tvIn
  | .putsp, w => w.extractLsb' 0 8 = Config.tvPutsp
  | .halt, w => w.extractLsb' 0 8 = Config.tvHalt
  | .trap v, w => w.extractLsb' 0 8 = v

/-- The slices of a word that its instruction examines, each by its lowest bit and its length: the opcode, the operands,
and the mode bit of ADD, AND and JSR. -/
def Instr.fields : Instr → List (Nat × Nat)
  | .br _ _ _ _ => [(12, 4), (11, 1), (10, 1), (9, 1), (0, 9)]
  | .add _ _ _ | .and _ _ _ => [(12, 4), (9, 3), (6, 3), (5, 1), (0, 3)]
  | .addi _ _ _ | .andi _ _ _ => [(12, 4), (9, 3), (6, 3), (5, 1), (0, 5)]
  | .ld _ _ | .st _ _ | .ldi _ _ | .sti _ _ | .lea _ _ => [(12, 4), (9, 3), (0, 9)]
  | .ldr _ _ _ | .str _ _ _ => [(12, 4), (9, 3), (6, 3), (0, 6)]
  | .not _ _ => [(12, 4), (9, 3), (6, 3)]
  | .jsr _ => [(12, 4), (11, 1), (0, 11)]
  | .jsrr _ => [(12, 4), (11, 1), (6, 3)]
  | .jmp _ => [(12, 4), (6, 3)]
  | .rti | .res => [(12, 4)]
  | .getc | .out | .puts | .in_ | .putsp | .halt | .trap _ => [(12, 4), (0, 8)]

/-- Two words hold the same value in every slice that the instruction examines. -/
def Instr.SameFields (i : Instr) (x y : Word) : Prop :=
  ∀ f ∈ i.fields, x.extractLsb' f.1 f.2 = y.extractLsb' f.1 f.2

/-! ### The slices and the mask -/

/-- A bit is examined exactly if one of the slices holds it (R107). -/
theorem Instr.examined_iff_mem_field (i : Instr) :
    ∀ k < 16, i.unexamined.getLsbD k = false ↔ ∃ f ∈ i.fields, f.1 ≤ k ∧ k < f.1 + f.2 := by
  cases i <;> dsimp only [Instr.unexamined, Instr.fields] <;> decide

theorem extract_eq_iff {x y : Word} {lo len : Nat} :
    x.extractLsb' lo len = y.extractLsb' lo len ↔ ∀ k, lo ≤ k → k < lo + len → x.getLsbD k = y.getLsbD k := by
  constructor
  · intro h k hlo hhi
    have inSlice : k - lo < len := by omega
    have e := congrArg (·.getLsbD (k - lo)) h
    simpa [BitVec.getLsbD_extractLsb', inSlice, hlo] using e
  · intro h
    refine BitVec.eq_of_getLsbD_eq fun k hk => ?_
    rw [BitVec.getLsbD_extractLsb', BitVec.getLsbD_extractLsb', h (lo + k) (by omega) (by omega)]

theorem and_not_eq_iff {u x y : Word} :
    x &&& ~~~u = y &&& ~~~u ↔ ∀ k < 16, u.getLsbD k = false → x.getLsbD k = y.getLsbD k := by
  rw [BitVec.eq_of_getLsbD_eq_iff]
  refine forall₂_congr fun k hk => ?_
  rw [BitVec.getLsbD_and, BitVec.getLsbD_and, BitVec.getLsbD_not, decide_eq_true hk]
  cases u.getLsbD k <;> simp

theorem Instr.sameFields_iff_mask {i : Instr} {x y : Word} :
    i.SameFields x y ↔ x &&& ~~~i.unexamined = y &&& ~~~i.unexamined := by
  rw [and_not_eq_iff]
  constructor
  · intro h k hk hu
    obtain ⟨f, hf, hlo, hhi⟩ := (i.examined_iff_mem_field k hk).mp hu
    exact extract_eq_iff.mp (h f hf) k hlo hhi
  · intro h f hf
    refine extract_eq_iff.mpr fun k hlo hhi => ?_
    by_cases hk : k < 16
    · exact h k hk ((i.examined_iff_mem_field k hk).mpr ⟨f, hf, hlo, hhi⟩)
    · rw [BitVec.getLsbD_of_ge x k (by omega), BitVec.getLsbD_of_ge y k (by omega)]

/-! ### The slices of the operand bits, one lemma for each layout -/

/-- A slice above the right part of an append is a slice of the left part. -/
theorem extract_append_above {m n lo len : Nat} {x : BitVec m} {y : BitVec n} {v : BitVec len} (h : n ≤ lo)
    (hx : x.extractLsb' (lo - n) len = v) : (x ++ y).extractLsb' lo len = v :=
  (BitVec.extractLsb'_append_eq_of_le h).trans hx

section Layouts
open BitVec (extractLsb'_append_eq_left extractLsb'_append_eq_right extractLsb'_append_eq_of_add_le)

theorem extract_flags_off9 (n z p : BitVec 1) (off : BitVec 9) :
    (n ++ z ++ p ++ off : BitVec 12).extractLsb' 11 1 = n ∧ (n ++ z ++ p ++ off : BitVec 12).extractLsb' 10 1 = z ∧
    (n ++ z ++ p ++ off : BitVec 12).extractLsb' 9 1 = p ∧ (n ++ z ++ p ++ off : BitVec 12).extractLsb' 0 9 = off :=
  ⟨extract_append_above (by decide) (extract_append_above (by decide) extractLsb'_append_eq_left),
    extract_append_above (by decide) (extract_append_above (by decide) extractLsb'_append_eq_right),
    extract_append_above (by decide) extractLsb'_append_eq_right, extractLsb'_append_eq_right⟩

theorem extract_reg_off9 (r : BitVec 3) (off : BitVec 9) :
    (r ++ off : BitVec 12).extractLsb' 9 3 = r ∧ (r ++ off : BitVec 12).extractLsb' 0 9 = off :=
  ⟨extractLsb'_append_eq_left, extractLsb'_append_eq_right⟩

theorem extract_two_regs_off6 (r q : BitVec 3) (off : BitVec 6) :
    (r ++ q ++ off : BitVec 12).extractLsb' 9 3 = r ∧ (r ++ q ++ off : BitVec 12).extractLsb' 6 3 = q ∧
    (r ++ q ++ off : BitVec 12).extractLsb' 0 6 = off :=
  ⟨extract_append_above (by decide) extractLsb'_append_eq_left,
    extract_append_above (by decide) extractLsb'_append_eq_right, extractLsb'_append_eq_right⟩

theorem extract_three_regs (r q t : BitVec 3) :
    (r ++ q ++ 0#3 ++ t : BitVec 12).extractLsb' 9 3 = r ∧ (r ++ q ++ 0#3 ++ t : BitVec 12).extractLsb' 6 3 = q ∧
    (r ++ q ++ 0#3 ++ t : BitVec 12).extractLsb' 5 1 = 0#1 ∧ (r ++ q ++ 0#3 ++ t : BitVec 12).extractLsb' 0 3 = t :=
  ⟨extract_append_above (by decide) (extract_append_above (by decide) extractLsb'_append_eq_left),
    extract_append_above (by decide) (extract_append_above (by decide) extractLsb'_append_eq_right),
    extract_append_above (by decide) (extractLsb'_append_eq_of_add_le (by decide)), extractLsb'_append_eq_right⟩

theorem extract_two_regs_imm5 (r q : BitVec 3) (imm : BitVec 5) :
    (r ++ q ++ 1#1 ++ imm : BitVec 12).extractLsb' 9 3 = r ∧ (r ++ q ++ 1#1 ++ imm : BitVec 12).extractLsb' 6 3 = q ∧
    (r ++ q ++ 1#1 ++ imm : BitVec 12).extractLsb' 5 1 = 1#1 ∧
    (r ++ q ++ 1#1 ++ imm : BitVec 12).extractLsb' 0 5 = imm :=
  ⟨extract_append_above (by decide) (extract_append_above (by decide) extractLsb'_append_eq_left),
    extract_append_above (by decide) (extract_append_above (by decide) extractLsb'_append_eq_right),
    extract_append_above (by decide) extractLsb'_append_eq_right, extractLsb'_append_eq_right⟩

theorem extract_mode_off11 (off : BitVec 11) :
    (1#1 ++ off : BitVec 12).extractLsb' 11 1 = 1#1 ∧ (1#1 ++ off : BitVec 12).extractLsb' 0 11 = off :=
  ⟨extractLsb'_append_eq_left, extractLsb'_append_eq_right⟩

theorem extract_base (r : BitVec 3) :
    (0#3 ++ r ++ 0#6 : BitVec 12).extractLsb' 11 1 = 0#1 ∧ (0#3 ++ r ++ 0#6 : BitVec 12).extractLsb' 6 3 = r :=
  ⟨extract_append_above (by decide) (extract_append_above (by decide) rfl),
    extract_append_above (by decide) extractLsb'_append_eq_right⟩

theorem extract_code (v : BitVec 8) : (0#4 ++ v : BitVec 12).extractLsb' 0 8 = v :=
  extractLsb'_append_eq_right

end Layouts

/-- A word that agrees with the encoding in every examined slice holds the opcode and the operands, and conversely. -/
theorem Instr.sameFields_encode_iff {i : Instr} {w : Word} :
    i.SameFields w (encode i) ↔ opcodeField w = i.opcode.code ∧ i.OperandsIn w := by
  have opcode : (encode i).extractLsb' 12 4 = i.opcode.code := opcodeField_encode i
  -- The slices of `encode i` are those of its layout, so each slice equation is the equation of one operand.
  cases i <;>
    simp [SameFields, fields, OperandsIn, opcodeField, opcode, regField_eq_iff, bitField_eq_iff, extract_encode,
      operandBits, extract_flags_off9, extract_reg_off9, extract_two_regs_off6, extract_three_regs,
      extract_two_regs_imm5, extract_mode_off11, extract_base, extract_code]

end Sys2Proof
end

section
/-! The decoder (30_encoding.md R100-R110) against the formats: the words that decode to a well-formed instruction are
those that hold its opcode and its operands, which are those that agree with its encoding in every examined bit. From
this, the statements about encoding. -/

namespace Sys2Proof

theorem code_ofCode : ∀ c : BitVec 4, (Opcode.ofCode c).code = c := by decide

/-! ### Trap codes -/

/-- The codes that name no service are those outside 0x20 to 0x25 (R109). -/
theorem trap_wellFormed_iff (v : BitVec 8) : (Instr.trap v).wellFormed = true ↔ v.toNat < 0x20 ∨ 0x25 < v.toNat := by
  simp only [Instr.wellFormed, isServiceCode, Bool.not_eq_true', Bool.or_eq_false_iff, beq_eq_false_iff_ne, ne_eq,
    ← BitVec.toNat_inj, Config.tvGetc, Config.tvOut, Config.tvPuts, Config.tvIn, Config.tvPutsp, Config.tvHalt,
    BitVec.reduceToNat]
  omega

/-- What a word's trap code selects is well-formed, a TRAP, and stands for that code. -/
theorem decodeTrap_spec (w : Word) :
    (decodeTrap (w.extractLsb' 0 8)).wellFormed = true ∧ (decodeTrap (w.extractLsb' 0 8)).opcode = .trap ∧
      (decodeTrap (w.extractLsb' 0 8)).OperandsIn w := by
  unfold decodeTrap
  split_ifs with hgetc hout hputs hin hputsp hhalt
  · exact ⟨rfl, rfl, hgetc⟩
  · exact ⟨rfl, rfl, hout⟩
  · exact ⟨rfl, rfl, hputs⟩
  · exact ⟨rfl, rfl, hin⟩
  · exact ⟨rfl, rfl, hputsp⟩
  · exact ⟨rfl, rfl, hhalt⟩
  · refine ⟨?_, rfl, rfl⟩
    simp [Instr.wellFormed, isServiceCode, hgetc, hout, hputs, hin, hputsp, hhalt]

/-- A code that names no service selects itself. -/
theorem decodeTrap_of_wellFormed {v : BitVec 8} (h : (Instr.trap v).wellFormed = true) : decodeTrap v = .trap v := by
  simp_all [Instr.wellFormed, isServiceCode, decodeTrap]

/-! ### Decoding a word -/

/-- Every word decodes to a well-formed instruction whose opcode and operands it holds (R103, R110). -/
theorem decode_spec (w : Word) :
    (decode w).wellFormed = true ∧ opcodeField w = (decode w).opcode.code ∧ (decode w).OperandsIn w := by
  obtain ⟨op, hop⟩ : ∃ op : Opcode, opcodeField w = op.code := ⟨_, (code_ofCode _).symm⟩
  rw [decode, hop, ofCode_code]
  cases op with
  | br => exact ⟨rfl, rfl, rfl, rfl, rfl, rfl⟩
  | ld | st | ldi | sti | lea | not => exact ⟨rfl, rfl, rfl, rfl⟩
  | ldr | str => exact ⟨rfl, rfl, rfl, rfl, rfl⟩
  | jmp => exact ⟨rfl, rfl, rfl⟩
  | rti | res => exact ⟨rfl, rfl, trivial⟩
  | add | and => cases mode : bitField w 5 <;> exact ⟨rfl, rfl, rfl, rfl, mode, rfl⟩
  | jsr => cases mode : bitField w 11 <;> exact ⟨rfl, rfl, mode, rfl⟩
  | trap =>
    obtain ⟨wf, opcode, operands⟩ := decodeTrap_spec w
    exact ⟨wf, congrArg Opcode.code opcode.symm, operands⟩

/-- A word that holds the opcode and the operands of a well-formed instruction decodes to it. -/
theorem decode_eq_of_operandsIn {w : Word} {i : Instr} (hi : i.wellFormed = true)
    (op : opcodeField w = i.opcode.code) (h : i.OperandsIn w) : decode w = i := by
  rw [decode, op, ofCode_code]
  cases i with
  | getc | out | puts | in_ | putsp | halt => exact (congrArg decodeTrap h).trans (by decide)
  | trap v => exact (congrArg decodeTrap h).trans (decodeTrap_of_wellFormed hi)
  | _ => simp_all [Instr.opcode, Instr.OperandsIn]

theorem decode_eq_iff {w : Word} {i : Instr} (hi : i.wellFormed = true) :
    decode w = i ↔ opcodeField w = i.opcode.code ∧ i.OperandsIn w := by
  constructor
  · rintro rfl
    exact (decode_spec w).2
  · rintro ⟨op, h⟩
    exact decode_eq_of_operandsIn hi op h

/-- The decoder inverts the encoder up to the unexamined bits: the words that decode to an instruction are those that
agree with its encoding in every examined bit. -/
theorem decode_eq_iff_mask {w : Word} {i : Instr} (hi : i.wellFormed = true) :
    decode w = i ↔ w &&& ~~~i.unexamined = encode i &&& ~~~i.unexamined := by
  rw [decode_eq_iff hi, ← Instr.sameFields_encode_iff, Instr.sameFields_iff_mask]

/-- Settles O1: the encoding agrees with itself in every examined bit. -/
theorem decodeEncodeAgree : Obligations.DecodeEncodeAgree :=
  fun _ hi => (decode_eq_iff_mask hi).mpr rfl

/-- Settles O4: the word decodes to what it decodes to, so it agrees with the encoding of that in every examined bit. -/
theorem everyWordDecodesAndReencodes : Obligations.EveryWordDecodesAndReencodes := by
  intro w
  obtain ⟨wf, -⟩ := decode_spec w
  exact ⟨wf, ((decode_eq_iff_mask wf).mp rfl).symm⟩

/-- Changing bits inside a mask changes none outside it. -/
theorem xor_and_and_not (w m u : Word) : (w ^^^ (m &&& u)) &&& ~~~u = w &&& ~~~u :=
  and_not_eq_iff.mpr fun k _ hu => by simp [hu]

/-- Settles O3: the changed word still agrees with the encoding in every examined bit. -/
theorem unexaminedBitsDoNotMatter : Obligations.UnexaminedBitsDoNotMatter := by
  intro w m
  obtain ⟨wf, agrees⟩ := everyWordDecodesAndReencodes w
  exact (decode_eq_iff_mask wf).mpr ((xor_and_and_not w m _).trans agrees.symm)

/-- Settles O5: the words are closed, so the decoder is run on each. -/
theorem sampleWordsDecode : Obligations.SampleWordsDecode := by
  unfold Obligations.SampleWordsDecode
  decide

/-! ### The opcode map by masks and plain arithmetic -/

/-- A word that matches a value under a mask has the value's slices wherever the mask is all ones. -/
theorem extract_of_mask {w m v : Word} {lo len : Nat} (h : w &&& m = v)
    (hm : m.extractLsb' lo len = BitVec.allOnes len) : w.extractLsb' lo len = v.extractLsb' lo len := by
  rw [← h, BitVec.extractLsb'_and, hm, BitVec.and_allOnes]

/-- A word that matches a value under a mask has the value's bit wherever the mask is set. -/
theorem bitField_of_mask {w m v : Word} {k : Nat} (h : w &&& m = v) (hm : m.getLsbD k = true) :
    bitField w k = v.getLsbD k := by
  rw [← h, BitVec.getLsbD_and, hm, Bool.and_true, bitField]

/-- A register field as plain arithmetic on the word. -/
theorem regField_of_val {w : Word} {r : RegId} {lo : Nat} (h : r.val = w.toNat / 2 ^ lo % 8) : regField w lo = r :=
  Fin.ext ((BitVec.extractLsb'_toNat lo 3 w).trans (by rw [Nat.shiftRight_eq_div_pow, h]))

/-- A word that matches a row of the opcode map under a mask over the opcode decodes to the row's instruction, once it
holds the operands. -/
theorem decode_of_mask {w m v : Word} {i : Instr} (h : w &&& m = v) (hm : m.extractLsb' 12 4 = BitVec.allOnes 4)
    (hv : v.extractLsb' 12 4 = i.opcode.code) (hi : i.wellFormed = true) (operands : i.OperandsIn w) : decode w = i :=
  decode_eq_of_operandsIn hi ((extract_of_mask h hm).trans hv) operands

/-- Settles O2: the mask gives the opcode and the mode bit or the trap code; the other operands are the slices
themselves. -/
theorem decodeFollowsTheOpcodeMap : Obligations.DecodeFollowsTheOpcodeMap := by
  intro w a b c ha hb hc
  have ra : regField w 9 = a := regField_of_val ha
  have rb : regField w 6 = b := regField_of_val hb
  have rc : regField w 0 = c := regField_of_val (by rwa [pow_zero, Nat.div_one])
  exact ⟨fun h => decode_of_mask h rfl rfl rfl ⟨rfl, rfl, rfl, rfl⟩,
    fun h => decode_of_mask h rfl rfl rfl ⟨ra, rb, bitField_of_mask h rfl, rc⟩,
    fun h => decode_of_mask h rfl rfl rfl ⟨ra, rb, bitField_of_mask h rfl, rfl⟩,
    fun h => decode_of_mask h rfl rfl rfl ⟨ra, rfl⟩,
    fun h => decode_of_mask h rfl rfl rfl ⟨ra, rfl⟩,
    fun h => decode_of_mask h rfl rfl rfl ⟨bitField_of_mask h rfl, rfl⟩,
    fun h => decode_of_mask h rfl rfl rfl ⟨bitField_of_mask h rfl, rb⟩,
    fun h => decode_of_mask h rfl rfl rfl ⟨ra, rb, bitField_of_mask h rfl, rc⟩,
    fun h => decode_of_mask h rfl rfl rfl ⟨ra, rb, bitField_of_mask h rfl, rfl⟩,
    fun h => decode_of_mask h rfl rfl rfl ⟨ra, rb, rfl⟩,
    fun h => decode_of_mask h rfl rfl rfl ⟨ra, rb, rfl⟩,
    fun h => decode_of_mask h rfl rfl rfl trivial,
    fun h => decode_of_mask h rfl rfl rfl ⟨ra, rb⟩,
    fun h => decode_of_mask h rfl rfl rfl ⟨ra, rfl⟩,
    fun h => decode_of_mask h rfl rfl rfl ⟨ra, rfl⟩,
    fun h => decode_of_mask h rfl rfl rfl rb,
    fun h => decode_of_mask h rfl rfl rfl trivial,
    fun h => decode_of_mask h rfl rfl rfl ⟨ra, rfl⟩,
    fun h => decode_of_mask h rfl rfl rfl (extract_of_mask h rfl),
    fun h => decode_of_mask h rfl rfl rfl (extract_of_mask h rfl),
    fun h => decode_of_mask h rfl rfl rfl (extract_of_mask h rfl),
    fun h => decode_of_mask h rfl rfl rfl (extract_of_mask h rfl),
    fun h => decode_of_mask h rfl rfl rfl (extract_of_mask h rfl),
    fun h => decode_of_mask h rfl rfl rfl (extract_of_mask h rfl),
    fun h outside => decode_of_mask h rfl rfl ((trap_wellFormed_iff _).mpr (by rwa [BitVec.toNat_ofNat])) rfl⟩

end Sys2Proof
end

section
/-! What the operate instructions do (40_operate.md R140-R144): each completes by writing one word to DR with the flags,
so its frame is that of `State.writeResult` and what is left to say is the word. -/

namespace Sys2Proof.Machine

variable (s : State) (dr sr sr1 sr2 : RegId) (imm : BitVec 5)

/-! ### The end of a flag instruction -/

/-- The shared end of the flag instructions has the effect R42 describes. -/
theorem State.writesResult_writeResult (v : Word) : s.WritesResult (s.writeResult dr v) dr v := by
  refine ⟨s.writeResult_reg_self dr v, ?_, fun r hr => s.writeResult_reg_of_ne hr v, rfl, rfl, rfl, rfl, rfl, rfl⟩
  rw [s.writeResult_cond]
  exact flagOf_classifies v

/-! ### Truncated sums are sums of words -/

/-- Adding before truncation is adding after it, the sum mod 2^16 (R11). -/
theorem trunc16_uval_add (v : Word) (n : Int) : trunc16 (uval v + n) = v + trunc16 n :=
  (BitVec.ofInt_add (uval v) n).trans (congrArg (· + trunc16 n) (trunc16_uval v))

@[simp] theorem trunc16_sval (v : Word) : trunc16 (sval v) = v :=
  BitVec.ofInt_toInt

/-! ### The bits of an extended field -/

/-- The field's top bit stands for every higher bit of its sign extension. -/
theorem getLsbD_sext_min {n k : Nat} (f : BitVec (n + 1)) (hk : k < 16) :
    (sext f).getLsbD k = f.getLsbD (min k n) := by
  rw [getLsbD_sext, decide_eq_true hk, Bool.true_and]
  split_ifs with hfield
  · rw [min_eq_left (by omega)]
  · rw [min_eq_right (by omega), f.msb_eq_getLsbD_last, Nat.add_sub_cancel]

/-! ### The instructions -/

theorem exec_add : exec (.add dr sr1 sr2) s = .next (s.writeResult dr (s.reg sr1 + s.reg sr2)) := by
  rw [exec, execAdd, trunc16_uval_add, trunc16_uval]

theorem exec_addi : exec (.addi dr sr1 imm) s = .next (s.writeResult dr (s.reg sr1 + sext imm)) := by
  rw [exec, execAddi, trunc16_uval_add, trunc16_sval]

theorem exec_and : exec (.and dr sr1 sr2) s = .next (s.writeResult dr (s.reg sr1 &&& s.reg sr2)) := rfl

theorem exec_andi : exec (.andi dr sr1 imm) s = .next (s.writeResult dr (s.reg sr1 &&& sext imm)) := rfl

theorem exec_not : exec (.not dr sr) s = .next (s.writeResult dr (~~~s.reg sr)) := rfl

end Sys2Proof.Machine
end

section
/-! The statements about the operate instructions (40_operate.md). -/

namespace Sys2Proof.Machine

/-- Settles O32: the truncated sum of the two readings is the sum of the words. -/
theorem addSumsTwoRegisters : Obligations.AddSumsTwoRegisters :=
  fun dr sr1 sr2 s => ⟨_, exec_add s dr sr1 sr2, s.writesResult_writeResult dr _⟩

/-- Settles O33: the truncated sum with the immediate's signed reading is the sum with its sign extension. -/
theorem addiSumsARegisterAndItsImmediate : Obligations.AddiSumsARegisterAndItsImmediate :=
  fun dr sr1 imm s => ⟨_, exec_addi s dr sr1 imm, s.writesResult_writeResult dr _⟩

/-- Settles O34: the conjunction is taken bit by bit, of the immediate's sign extension in the second form. -/
theorem andCombinesBitwise : Obligations.AndCombinesBitwise := by
  refine ⟨fun dr sr1 sr2 s => ⟨_, _, exec_and s dr sr1 sr2, s.writesResult_writeResult dr _, fun k => ?_⟩,
    fun dr sr1 imm s => ⟨_, _, exec_andi s dr sr1 imm, s.writesResult_writeResult dr _, fun k hk => ?_⟩⟩
  · rw [BitVec.getLsbD_and]
  · rw [BitVec.getLsbD_and, getLsbD_sext_min imm hk]

/-- Settles O35: complementing a word subtracts its unsigned reading from 0xFFFF. -/
theorem notComplements : Obligations.NotComplements :=
  fun dr sr s => ⟨_, _, exec_not s dr sr, s.writesResult_writeResult dr _, BitVec.toNat_not⟩

end Sys2Proof.Machine
end

section
/-! What the data-movement instructions do (41_data_movement.md R160-R167): the address as a sum of readings, a load and
a store on a valid and on an invalid address, and each instruction as one of these. -/

namespace Sys2Proof.Machine

variable {s : State} {a : Int} {p : Word} (dr sr base : RegId) (off : BitVec 9) (off6 : BitVec 6)

/-! ### Effective addresses -/

theorem State.pcRelative_eq (s : State) : s.pcRelative off = uval s.pc + off.toInt := by
  rw [State.pcRelative, sval_sext (by decide)]

theorem State.baseOffset_eq (s : State) : s.baseOffset base off6 = uval (s.reg base) + off6.toInt := by
  rw [State.baseOffset, sval_sext (by decide)]

/-! ### Reads -/

theorem State.memRead_of_validAddr (h : s.validAddr a) : ∃ v, s.memRead a = .ok v :=
  ⟨_, if_pos h⟩

theorem State.memRead_of_not_validAddr (h : ¬s.validAddr a) : s.memRead a = .error (.addressOutOfRange (bitAddr a)) :=
  if_neg h

/-- Past its pointer word an indirect read is a read of the address the pointer names (R162). -/
theorem State.memReadIndirect_of_pointer (hp : s.memRead a = .ok p) : s.memReadIndirect a = s.memRead (uval p) := by
  rw [State.memReadIndirect, hp]

theorem State.memReadIndirect_of_not_validAddr (h : ¬s.validAddr a) :
    s.memReadIndirect a = .error (.addressOutOfRange (bitAddr a)) := by
  rw [State.memReadIndirect, State.memRead_of_not_validAddr h]

/-! ### Stores -/

/-- A write that completes keeps every bit outside the bits it places (R69). -/
theorem engineWrite_bit_of_outside {I : Nat} {hI : 2 ≤ I ∧ I ≤ 64} {m m' : Memory} {b : Int} {v : BitVec I} {g : Nat}
    (h : engineWrite I hI m b v = .ok m') (hg : (g : Int) < b ∨ b + I ≤ g) : m'.bit g = m.bit g := by
  obtain ⟨⟨hb, _⟩, rfl⟩ := engineWrite_eq_ok_iff.mp h
  rw [writeBits_bit, if_neg (by omega)]

/-- Words at different addresses share no bit, so a write to one leaves the read of the other (R75). -/
theorem State.memRead_of_memWrite_of_ne {t : State} {a' : Int} {v : Word} (h : s.memWrite a v = .ok t.mem)
    (ha : a' ≠ a) : t.memRead a' = s.memRead a' :=
  engineRead_engineWrite_of_disjoint h (by rw [bitAddr_eq, bitAddr_eq]; omega)

/-- A store to a valid address changes the sixteen bits there and nothing else. -/
theorem State.storeWord_of_validAddr (h : s.validAddr a) (v : Word) : s.StoresWord (s.storeWord a v) a v := by
  obtain ⟨_, m, hw, he⟩ | ⟨hno, _⟩ := s.storeWord_cases a v
  · rw [he]
    exact ⟨State.memRead_of_memWrite hw, fun _ => State.memRead_of_memWrite_of_ne hw,
      fun _ => engineWrite_bit_of_outside hw, engineWrite_cellCount hw, fun _ => rfl, rfl, rfl, rfl, rfl, rfl, rfl⟩
  · exact absurd h hno

theorem State.storeWord_of_not_validAddr (h : ¬s.validAddr a) (v : Word) :
    s.storeWord a v = s.withFailure (.addressOutOfRange (bitAddr a)) :=
  ((s.storeWord_cases a v).resolve_left fun ⟨hv, _⟩ => h hv).2

/-! ### Instructions that end in a load or a store -/

/-- An instruction that is a load from `a` ends as a flag instruction with the word there, or fails with its read. -/
theorem exec_load {i : Instr} {dr : RegId} (hi : exec i s = .next (s.loadResult dr (s.memRead a))) :
    (s.validAddr a → ∃ v t, s.memRead a = .ok v ∧ exec i s = .next t ∧ s.WritesResult t dr v) ∧
      (¬s.validAddr a → exec i s = .next (s.withFailure (.addressOutOfRange (bitAddr a)))) := by
  refine ⟨fun valid => ?_, fun invalid => ?_⟩
  · obtain ⟨v, hv⟩ := State.memRead_of_validAddr valid
    rw [hv] at hi
    exact ⟨v, _, hv, hi, s.writesResult_writeResult dr v⟩
  · rw [State.memRead_of_not_validAddr invalid] at hi
    exact hi

/-- An instruction that is a store to `a` changes the sixteen bits there and nothing else, or fails with its write. -/
theorem exec_store {i : Instr} {v : Word} (hi : exec i s = .next (s.storeWord a v)) :
    (s.validAddr a → ∃ t, exec i s = .next t ∧ s.StoresWord t a v) ∧
      (¬s.validAddr a → exec i s = .next (s.withFailure (.addressOutOfRange (bitAddr a)))) :=
  ⟨fun valid => ⟨_, hi, State.storeWord_of_validAddr valid v⟩,
    fun invalid => hi.trans (congrArg Host.Outcome.next (State.storeWord_of_not_validAddr invalid v))⟩

/-! ### The instructions -/

theorem exec_ld : exec (.ld dr off) s = .next (s.loadResult dr (s.memRead (uval s.pc + off.toInt))) := by
  rw [exec, execLd, State.pcRelative_eq]

/-- Past its pointer word LDI is a load from the address the pointer names (R162). -/
theorem exec_ldi_of_pointer (hp : s.memRead (uval s.pc + off.toInt) = .ok p) :
    exec (.ldi dr off) s = .next (s.loadResult dr (s.memRead (uval p))) := by
  rw [exec, execLdi, State.pcRelative_eq, State.memReadIndirect_of_pointer hp]

theorem exec_ldi_of_not_validAddr (h : ¬s.validAddr (uval s.pc + off.toInt)) :
    exec (.ldi dr off) s = .next (s.withFailure (.addressOutOfRange (bitAddr (uval s.pc + off.toInt)))) := by
  rw [exec, execLdi, State.pcRelative_eq, State.memReadIndirect_of_not_validAddr h]
  rfl

theorem exec_ldr :
    exec (.ldr dr base off6) s = .next (s.loadResult dr (s.memRead (uval (s.reg base) + off6.toInt))) := by
  rw [exec, execLdr, State.baseOffset_eq]

theorem exec_lea : exec (.lea dr off) s = .next (s.writeResult dr (s.pc + off.signExtend 16)) := by
  rw [exec, execLea, State.pcRelative, trunc16_uval_add, trunc16_sval, sext]

theorem exec_st : exec (.st sr off) s = .next (s.storeWord (s.pcRelative off) (s.reg sr)) := rfl

/-- Past its pointer word STI is a store to the address the pointer names (R166). -/
theorem exec_sti_of_pointer (hp : s.memRead (s.pcRelative off) = .ok p) :
    exec (.sti sr off) s = .next (s.storeWord (uval p) (s.reg sr)) := by
  rw [exec, execSti, hp]

theorem exec_sti_of_not_validAddr (h : ¬s.validAddr (s.pcRelative off)) :
    exec (.sti sr off) s = .next (s.withFailure (.addressOutOfRange (bitAddr (s.pcRelative off)))) := by
  rw [exec, execSti, State.memRead_of_not_validAddr h]
  rfl

theorem exec_str : exec (.str sr base off6) s = .next (s.storeWord (s.baseOffset base off6) (s.reg sr)) := rfl

end Sys2Proof.Machine
end

section
/-! The statements about the data-movement instructions (41_data_movement.md). -/

namespace Sys2Proof.Machine

/-- Settles O36: LD is a load from the exact sum of the two readings. -/
theorem ldLoadsPcRelative : Obligations.LdLoadsPcRelative :=
  fun dr off _ => exec_load (exec_ld dr off)

/-- Settles O37: the pointer read fails first; past it LDI is a load from the address the pointer names. -/
theorem ldiLoadsThroughAPointer : Obligations.LdiLoadsThroughAPointer := by
  intro dr off s
  refine ⟨exec_ldi_of_not_validAddr dr off, fun valid => ?_⟩
  obtain ⟨p, hp⟩ := State.memRead_of_validAddr valid
  exact ⟨p, hp, exec_load (exec_ldi_of_pointer dr off hp)⟩

/-- Settles O38: LDR is a load from the base plus the offset, the base read before DR is written. -/
theorem ldrLoadsBasePlusOffset : Obligations.LdrLoadsBasePlusOffset :=
  fun dr base off _ => exec_load (exec_ldr dr base off)

/-- Settles O39: the truncated address is the sum of the words, and no access is made. -/
theorem leaWritesTheAddress : Obligations.LeaWritesTheAddress :=
  fun dr off s => ⟨_, exec_lea dr off, s.writesResult_writeResult dr _⟩

/-- Settles O40: ST is a store to the PC-relative address. -/
theorem stStoresPcRelative : Obligations.StStoresPcRelative := by
  intro sr off s
  obtain ⟨stores, fails⟩ := exec_store (exec_st (s := s) sr off)
  exact ⟨stores, fails, s.pcRelative_eq off⟩

/-- Settles O41: the pointer read fails first; past it STI is a store to the address the pointer names. -/
theorem stiStoresThroughAPointer : Obligations.StiStoresThroughAPointer := by
  intro sr off s
  refine ⟨exec_sti_of_not_validAddr sr off, fun valid => ?_⟩
  obtain ⟨p, hp⟩ := State.memRead_of_validAddr valid
  exact ⟨p, hp, exec_store (exec_sti_of_pointer sr off hp)⟩

/-- Settles O42: STR is a store to the base plus the offset. -/
theorem strStoresBasePlusOffset : Obligations.StrStoresBasePlusOffset := by
  intro sr base off s
  obtain ⟨stores, fails⟩ := exec_store (exec_str (s := s) sr base off)
  exact ⟨stores, fails, s.baseOffset_eq base off⟩

end Sys2Proof.Machine
end

section
/-! What the control instructions do (42_control.md R190-R195): the BR test on a legal COND, and each instruction as
an update of the program counter, after the link of a call. -/

namespace Sys2Proof.Machine

variable {s : State} {n z p : Bool} {base : RegId} (off : BitVec 9)

/-! ### The branch test -/

/-- A legal COND has exactly the bit of its flag set: bit 2 for N, bit 1 for Z, bit 0 for P (R40, R44). -/
theorem State.condLegal.bits (h : s.condLegal) :
    (s.cond.getLsbD 2 = true ↔ s.cond = Config.flagN) ∧ (s.cond.getLsbD 1 = true ↔ s.cond = Config.flagZ) ∧
      (s.cond.getLsbD 0 = true ↔ s.cond = Config.flagP) := by
  obtain h | h | h | h := h <;> rw [h] <;> decide

/-- On a legal COND the BR test asks for nzp = 000 or the bit of the current flag (R190). -/
theorem branchTaken_iff_flag (h : s.condLegal) :
    branchTaken n z p s.cond = true ↔
      (n = false ∧ z = false ∧ p = false) ∨ (n = true ∧ s.cond = Config.flagN) ∨ (z = true ∧ s.cond = Config.flagZ) ∨
        (p = true ∧ s.cond = Config.flagP) := by
  obtain ⟨bitN, bitZ, bitP⟩ := h.bits
  rw [branchTaken_iff, bitN, bitZ, bitP]

/-! ### Targets -/

/-- The sum of a word's unsigned and another's signed reading, truncated, is the sum of the words. -/
theorem trunc16_uval_add_sval (v w : Word) : trunc16 (uval v + sval w) = v + w := by
  rw [trunc16_uval_add, trunc16_sval]

/-- A register's value as a jump target is that value. -/
theorem State.setPc_uval (v : Word) : s.setPc (uval v) = { s with pc := v } := by
  rw [State.setPc, trunc16_uval]

/-! ### The instructions -/

theorem exec_br_of_taken (h : branchTaken n z p s.cond = true) :
    exec (.br n z p off) s = .next { s with pc := s.pc + off.signExtend 16 } := by
  rw [exec, execBr, if_pos h, State.setPc, State.pcRelative, trunc16_uval_add_sval, sext]

theorem exec_br_of_not_taken (h : ¬branchTaken n z p s.cond = true) : exec (.br n z p off) s = .next s := by
  rw [exec, execBr, if_neg h]

theorem exec_jmp : exec (.jmp base) s = .next { s with pc := s.reg base } := by
  rw [exec, execJmp, State.setPc_uval]

theorem exec_jsr (off11 : BitVec 11) :
    exec (.jsr off11) s = .next { s.setReg 7 s.pc with pc := s.pc + off11.signExtend 16 } := by
  rw [exec, execJsr, State.setPc, State.pcRelative11, trunc16_uval_add_sval, sext]

/-- JSRR reads its target from the register file that holds the link already (R193). -/
theorem exec_jsrr : exec (.jsrr base) s = .next { s.setReg 7 s.pc with pc := (s.setReg 7 s.pc).reg base } := by
  rw [exec, execJsrr, State.setPc_uval]

theorem exec_rti : exec .rti s = .next s := rfl

theorem exec_res : exec .res s = .next s := rfl

end Sys2Proof.Machine
end

section
/-! The statements about the control instructions (42_control.md). -/

namespace Sys2Proof.Machine

/-- Settles O44: on a legal COND the test on bits is the test on flag codes, and its three negations are that it
fails. -/
theorem brBranchesOnTheCurrentFlag : Obligations.BrBranchesOnTheCurrentFlag := by
  intro n z p off s legal
  refine ⟨fun taken => exec_br_of_taken off ((branchTaken_iff_flag legal).mpr taken),
    fun hzero hn hz hp => exec_br_of_not_taken off fun taken => ?_⟩
  obtain h | h | h | h := (branchTaken_iff_flag legal).mp taken
  · exact hzero h
  · exact hn h
  · exact hz h
  · exact hp h

/-- Settles O45: a truncated register value is that value. -/
theorem jmpJumpsToTheRegister : Obligations.JmpJumpsToTheRegister :=
  fun _ _ => exec_jmp

/-- Settles O46: the link is the only register written, and the truncated target is the sum of the words. -/
theorem jsrCallsPcRelative : Obligations.JsrCallsPcRelative :=
  fun off s => ⟨_, exec_jsr off, s.reg_setReg_self 7 s.pc, rfl, fun _ hr => s.reg_setReg_of_ne hr s.pc,
    rfl, rfl, rfl, rfl, rfl, rfl⟩

/-- Settles O47: after the link is written, base 7 reads the link and every other base its old value. -/
theorem jsrrCallsThroughARegister : Obligations.JsrrCallsThroughARegister := by
  intro base s
  have link : (s.setReg 7 s.pc).reg 7 = s.pc := s.reg_setReg_self 7 s.pc
  have kept : ∀ r, r ≠ 7 → (s.setReg 7 s.pc).reg r = s.reg r := fun _ hr => s.reg_setReg_of_ne hr s.pc
  exact ⟨_, exec_jsrr, link, kept base, fun hbase => hbase ▸ link, kept, rfl, rfl, rfl, rfl, rfl, rfl⟩

/-- Settles O48: both handlers answer the state they were given. -/
theorem reservedOpcodesDoNothing : Obligations.ReservedOpcodesDoNothing :=
  fun _ => ⟨exec_rti, exec_res⟩

end Sys2Proof.Machine
end

section
/-! What the console services do (43_trap.md R211-R217): the string scan on a terminated and on an unterminated string,
the two characters of a packed word, a line of input, and each service as an update of the state. -/

namespace Sys2Proof.Machine

variable {s : State} {a : Int} {w : Word} {ws : List Word} {k fuel : Nat} {line : Text} {rest : List Text}

/-! ### Strings in memory, word by word -/

/-- A register's value used as an address is not negative. -/
theorem uval_nonneg (v : Word) : 0 ≤ uval v :=
  Int.natCast_nonneg _

/-- The address of a word of a string, counted from the second word on. -/
theorem wordAddress_succ (a : Int) (k : Nat) :
    a + ((k + 1 : Nat) : Int) * Config.step = a + Config.step + (k : Int) * Config.step := by
  simp only [config_step]
  omega

/-- The address of a string's first word. -/
theorem wordAddress_zero (a : Int) : a + ((0 : Nat) : Int) * Config.step = a := by
  simp

theorem State.holdsString_nil (h : s.holdsString a []) : s.memRead a = .ok 0 := by
  obtain ⟨_, closed⟩ := h
  rwa [List.length_nil, wordAddress_zero] at closed

theorem State.holdsString_cons (h : s.holdsString a (w :: ws)) :
    w ≠ 0 ∧ s.memRead a = .ok w ∧ s.holdsString (a + Config.step) ws := by
  obtain ⟨words, closed⟩ := h
  obtain ⟨nonzero, first⟩ := words 0 (Nat.zero_lt_succ _)
  rw [wordAddress_zero] at first
  rw [List.length_cons, wordAddress_succ] at closed
  refine ⟨nonzero, first, fun k hk => ?_, closed⟩
  have word := words (k + 1) (Nat.succ_lt_succ hk)
  rwa [wordAddress_succ] at word

theorem State.noTerminator_tail (h : s.noTerminator a) : s.noTerminator (a + Config.step) := by
  intro k
  rw [← wordAddress_succ]
  exact h (k + 1)

theorem State.firstInvalidWord_zero (h : s.firstInvalidWord a 0) : ¬s.validAddr a := by
  obtain ⟨_, invalid⟩ := h
  rwa [wordAddress_zero] at invalid

theorem State.firstInvalidWord_succ (h : s.firstInvalidWord a (k + 1)) :
    s.validAddr a ∧ s.firstInvalidWord (a + Config.step) k := by
  obtain ⟨valid, invalid⟩ := h
  have first := valid 0 (Nat.succ_pos k)
  rw [wordAddress_zero] at first
  rw [wordAddress_succ] at invalid
  refine ⟨first, fun j hj => ?_, invalid⟩
  have next := valid (j + 1) (Nat.succ_lt_succ hj)
  rwa [wordAddress_succ] at next

/-- Upwards from a natural address an invalid one is met after at most as many words as memory has. -/
theorem State.exists_firstInvalidWord (s : State) (h0 : 0 ≤ a) :
    ∃ k, k ≤ s.mem.cellCount * 4 ∧ s.firstInvalidWord a k := by
  refine ⟨(4 * (s.mem.cellCount : Int) - a).toNat, by omega, fun j hj => ?_, ?_⟩ <;>
  · rw [State.validAddr_iff, config_step]
    omega

/-! ### Scans -/

/-- With fuel for its words and its zero word, a scan reads a whole string. -/
theorem State.scanWords_of_holdsString (h : s.holdsString a ws) (hf : ws.length < fuel) :
    s.scanWords fuel a = .ok ws := by
  obtain ⟨n, rfl⟩ : ∃ n, fuel = n + 1 := Nat.exists_eq_succ_of_ne_zero (by omega)
  induction ws generalizing a n with
  | nil => exact State.scanWords_terminator (State.holdsString_nil h)
  | cons w ws ih =>
    obtain ⟨nonzero, first, tail⟩ := State.holdsString_cons h
    obtain ⟨m, rfl⟩ : ∃ m, n = m + 1 := Nat.exists_eq_succ_of_ne_zero (by simp at hf; omega)
    rw [State.scanWords_word first nonzero, ih tail m (Nat.lt_of_succ_lt_succ hf)]
    rfl

/-- With no zero word ahead a scan reads up to the first invalid address and fails there. -/
theorem State.scanWords_of_noTerminator (h : s.noTerminator a) (hk : s.firstInvalidWord a k) (hf : k ≤ fuel) :
    s.scanWords fuel a = .error (.addressOutOfRange (bitAddr (a + (k : Int) * Config.step))) := by
  induction k generalizing a fuel with
  | zero =>
    rw [wordAddress_zero]
    exact State.scanWords_outside (State.firstInvalidWord_zero hk)
  | succ k ih =>
    obtain ⟨valid, hk⟩ := State.firstInvalidWord_succ hk
    obtain ⟨w, first⟩ := State.memRead_of_validAddr valid
    have nonzero : w ≠ 0 := fun hw => h 0 (by rw [wordAddress_zero, first, hw])
    obtain ⟨n, rfl⟩ : ∃ n, fuel = n + 1 := Nat.exists_eq_succ_of_ne_zero (by omega)
    rw [State.scanWords_word first nonzero, ih (State.noTerminator_tail h) hk (Nat.le_of_succ_le_succ hf),
      wordAddress_succ]
    rfl

/-- A string that stands in memory is shorter than memory, so its scan is not ended by the fuel. -/
theorem State.stringAt_of_holdsString (h0 : 0 ≤ a) (h : s.holdsString a ws) : s.stringAt a = .ok ws := by
  refine State.scanWords_of_holdsString h ?_
  obtain ⟨_, closed⟩ := h
  obtain ⟨valid, _⟩ | ⟨_, fails⟩ := s.memRead_cases (a + (ws.length : Int) * Config.step)
  · rw [State.validAddr_iff, config_step] at valid
    omega
  · rw [fails] at closed
    cases closed

theorem State.stringAt_of_noTerminator (h0 : 0 ≤ a) (h : s.noTerminator a) :
    ∃ k, s.firstInvalidWord a k ∧
      s.stringAt a = .error (.addressOutOfRange (bitAddr (a + (k : Int) * Config.step))) := by
  obtain ⟨k, bound, hk⟩ := s.exists_firstInvalidWord h0
  exact ⟨k, hk, State.scanWords_of_noTerminator h hk (Nat.le_succ_of_le bound)⟩

/-! ### Packed characters -/

/-- A byte of a word as a character, in plain arithmetic. -/
theorem zext_byte (w : Word) (lo : Nat) : zext (w.extractLsb' lo 8) = BitVec.ofNat 16 (w.toNat / 2 ^ lo % 256) := by
  refine BitVec.eq_of_toNat_eq ?_
  simp [zext, Nat.shiftRight_eq_div_pow]

theorem zext_lowByte (w : Word) : zext (w.extractLsb' 0 8) = BitVec.ofNat 16 (w.toNat % 256) := by
  rw [zext_byte, pow_zero, Nat.div_one]

/-- The two characters of a word, high byte first (R215). -/
theorem unpackChars_eq (w : Word) :
    unpackChars w = [BitVec.ofNat 16 (w.toNat / 256), BitVec.ofNat 16 (w.toNat % 256)] := by
  have high : w.toNat / 2 ^ 8 % 256 = w.toNat / 256 := by omega
  rw [unpackChars, zext_byte, high, zext_lowByte]

theorem length_flatMap_unpackChars (ws : List Word) : (ws.flatMap unpackChars).length = 2 * ws.length := by
  have two : ∀ w, (unpackChars w).length = 2 := fun _ => rfl
  simp [List.length_flatMap, two, Nat.mul_comm]

/-- The characters of word number `k` stand at `2 k` and `2 k + 1`. -/
theorem getElem?_flatMap_unpackChars (h : k < ws.length) :
    (ws.flatMap unpackChars)[2 * k]? = some (BitVec.ofNat 16 (ws[k].toNat / 256)) ∧
      (ws.flatMap unpackChars)[2 * k + 1]? = some (BitVec.ofNat 16 (ws[k].toNat % 256)) := by
  induction ws generalizing k with
  | nil => cases h
  | cons w ws ih =>
    rw [List.flatMap_cons, unpackChars_eq]
    cases k with
    | zero => exact ⟨rfl, rfl⟩
    | succ k => exact ih (Nat.lt_of_succ_lt_succ h)

/-! ### Lines of input -/

theorem State.consoleReadLine_of_line (h : s.cin = line :: rest) : s.consoleReadLine = some (line, s.setCin rest) := by
  rw [State.consoleReadLine, h]

theorem State.consoleReadLine_of_none (h : s.cin = []) : s.consoleReadLine = none := by
  rw [State.consoleReadLine, h]

/-! ### The services -/

theorem exec_getc_of_line (h : s.cin = line :: rest) :
    exec .getc s = .next ((s.setCin rest).setReg 0 (line.headD 0)) := by
  rw [exec, execGetc, State.consoleReadLine_of_line h]
  cases line <;> rfl

/-- Without a line GETC is not enabled (R220). -/
theorem exec_getc_of_none (h : s.cin = []) : exec .getc s = .fault .stuckAwaitingLine := by
  rw [exec, execGetc, State.consoleReadLine_of_none h]

theorem exec_out : exec .out s = .next (s.consoleWrite [BitVec.ofNat 16 ((s.reg 0).toNat % 256)]) := by
  rw [exec, execOut, zext_lowByte]

theorem exec_puts_of_string (h : s.stringAt (uval (s.reg 0)) = .ok ws) : exec .puts s = .next (s.consoleWrite ws) := by
  rw [exec, execPuts, h]

theorem exec_puts_of_failure {f : Failure} (h : s.stringAt (uval (s.reg 0)) = .error f) :
    exec .puts s = .next (s.withFailure f) := by
  rw [exec, execPuts, h]
  rfl

theorem exec_in_of_line {c : Character} {cs : Text} (h : s.cin = (c :: cs) :: rest) :
    exec .in_ s = .next (((s.consoleWrite Config.inPrompt).setCin rest).setReg 0 c) := by
  rw [exec, execIn, State.consoleReadLine_of_line (s := s.consoleWrite Config.inPrompt) h]

/-- An empty line is consumed before IN fails (93 U5). -/
theorem exec_in_of_emptyLine (h : s.cin = [] :: rest) :
    exec .in_ s = .next (((s.consoleWrite Config.inPrompt).setCin rest).raise .unspecifiedInEmptyLine) := by
  rw [exec, execIn, State.consoleReadLine_of_line (s := s.consoleWrite Config.inPrompt) h]

/-- Without a line IN is not enabled (R220). -/
theorem exec_in_of_none (h : s.cin = []) : exec .in_ s = .fault .stuckAwaitingLine := by
  rw [exec, execIn, State.consoleReadLine_of_none (s := s.consoleWrite Config.inPrompt) h]

theorem exec_putsp_of_string (h : s.stringAt (uval (s.reg 0)) = .ok ws) :
    exec .putsp s = .next (s.consoleWrite (ws.flatMap unpackChars)) := by
  rw [exec, execPutsp, h]

theorem exec_putsp_of_failure {f : Failure} (h : s.stringAt (uval (s.reg 0)) = .error f) :
    exec .putsp s = .next (s.withFailure f) := by
  rw [exec, execPutsp, h]
  rfl

theorem exec_halt : exec .halt s = .next s.stopRun := rfl

theorem exec_trap (v : BitVec 8) : exec (.trap v) s = .next (s.raise (.unknownTrapCode v)) := rfl

end Sys2Proof.Machine
end

section
/-! The statements about TRAP and its services (43_trap.md). -/

namespace Sys2Proof.Machine

/-- Settles O51: the scan of a string returns it, and without a zero word it fails at the first invalid address before
anything is written. -/
theorem putsWritesTheString : Obligations.PutsWritesTheString := by
  refine fun s => ⟨fun ws string => exec_puts_of_string (State.stringAt_of_holdsString (uval_nonneg _) string),
    fun unclosed => ?_⟩
  obtain ⟨k, ⟨valid, invalid⟩, fails⟩ := State.stringAt_of_noTerminator (uval_nonneg _) unclosed
  exact ⟨k, invalid, valid, exec_puts_of_failure fails⟩

/-- Settles O53: PUTSP scans as PUTS does and writes the two characters of each word. -/
theorem putspWritesPackedCharacters : Obligations.PutspWritesPackedCharacters := by
  refine fun s => ⟨fun ws string => ?_, fun unclosed => ?_⟩
  · have scanned := State.stringAt_of_holdsString (uval_nonneg _) string
    exact ⟨_, exec_putsp_of_string scanned, length_flatMap_unpackChars ws, fun _ => getElem?_flatMap_unpackChars⟩
  · obtain ⟨k, ⟨valid, invalid⟩, fails⟩ := State.stringAt_of_noTerminator (uval_nonneg _) unclosed
    exact ⟨k, invalid, valid, exec_putsp_of_failure fails⟩

/-- Settles O49: R0 is the only register written, and the line is consumed whole. -/
theorem getcReadsALine : Obligations.GetcReadsALine := by
  refine ⟨fun s line rest hline => ?_, fun _ => exec_getc_of_none⟩
  exact ⟨_, exec_getc_of_line hline, State.reg_setReg_self _ 0 _, rfl, fun _ hr => State.reg_setReg_of_ne _ hr _,
    rfl, rfl, rfl, rfl, rfl, rfl⟩

/-- Settles O50: the low byte is the value modulo 256. -/
theorem outWritesTheLowByte : Obligations.OutWritesTheLowByte :=
  fun _ => exec_out

/-- Settles O52: the prompt precedes the read, a line is consumed even when it is empty, and R0 is the only register
written. -/
theorem inPromptsAndReadsALine : Obligations.InPromptsAndReadsALine := by
  refine ⟨fun s c cs rest hline => ?_, fun _ _ => exec_in_of_emptyLine, fun _ => exec_in_of_none⟩
  exact ⟨_, exec_in_of_line hline, State.reg_setReg_self _ 0 _, rfl, rfl, fun _ hr => State.reg_setReg_of_ne _ hr _,
    rfl, rfl, rfl, rfl, rfl⟩

/-- Settles O54: HALT only clears the run flag. -/
theorem haltEndsTheRun : Obligations.HaltEndsTheRun :=
  fun _ => exec_halt

/-- Settles O55: such a TRAP only latches its failure. -/
theorem undefinedTrapCodeFails : Obligations.UndefinedTrapCodeFails :=
  fun v _ => exec_trap v

end Sys2Proof.Machine
end

section
/-! How an effect latches a failure (60_exceptions.md R242, R244, R247; 93 U5). -/

namespace Sys2Proof.Machine

variable {s t : State} {i : Instr}

/-- Neither bound of the range check holds for an invalid address (R242). -/
theorem State.bitAddr_of_not_validAddr {a : Int} (h : ¬s.validAddr a) :
    bitAddr a < 0 ∨ s.mem.maxAddress 16 < bitAddr a := by
  rwa [State.validAddr, Memory.accepts, not_and_or, not_le, not_le] at h

/-- An effect leaves the latch, or raises a failure of its instruction: of a memory access, of TRAP, or of IN after its
prompt and its line. -/
theorem Effect.fault_cases (e : Effect s i t) :
    t.fault = s.fault ∨
      (accessesMemory i = true ∧ ∃ a, ¬s.validAddr a ∧ t = s.raise (.addressOutOfRange (bitAddr a))) ∨
      (∃ v, i = .trap v ∧ t = s.raise (.unknownTrapCode v)) ∨
      (i = .in_ ∧ ∃ rest, s.cin = [] :: rest ∧
        t = ((s.consoleWrite Config.inPrompt).setCin rest).raise .unspecifiedInEmptyLine) := by
  cases e with
  | outOfRange hi ha => exact .inr (.inl ⟨hi, _, ha, rfl⟩)
  | trap => exact .inr (.inr (.inl ⟨_, rfl, rfl⟩))
  | inEmpty h => exact .inr (.inr (.inr ⟨rfl, _, h, rfl⟩))
  | _ => exact .inl rfl

end Sys2Proof.Machine
end

section
/-! The text `writeProgram` takes (70_reset_and_hazards.md R285): its chunks as words, its good words and what follows
them, and the load of the good words. -/

namespace Sys2Proof.Machine

variable {s : State} {a : Int} {w : Word} {ws : List Word} {c : Char} {chunk bits rest : List Char}

/-! ### Digits -/

/-- The lowest `n` bits of a number as binary digits, most significant first. -/
def lowDigits (x : Nat) : Nat → List Char
  | 0 => []
  | n + 1 => (if x.testBit n then '1' else '0') :: lowDigits x n

theorem length_lowDigits (x n : Nat) : (lowDigits x n).length = n := by
  induction n with
  | zero => rfl
  | succ n ih => rw [lowDigits, List.length_cons, ih]

/-- The digits of a word are those of its lowest sixteen bits. -/
theorem wordDigits_eq_lowDigits (w : Word) : wordDigits w = lowDigits w.toNat 16 := rfl

theorem length_wordDigits (w : Word) : (wordDigits w).length = 16 :=
  length_lowDigits w.toNat 16

theorem wordDigits_append_ne_nil (w : Word) (rest : List Char) : wordDigits w ++ rest ≠ [] :=
  List.append_ne_nil_of_left_ne_nil (List.ne_nil_of_length_pos (by rw [length_wordDigits]; decide)) rest

theorem digitValue_eq_none_iff : digitValue c = none ↔ c ≠ '0' ∧ c ≠ '1' := by
  rw [digitValue]
  split_ifs with h0 h1
  · simp [h0]
  · simp [h1]
  · exact iff_of_true rfl ⟨h0, h1⟩

/-- A digit's value is the last bit of the number it ends. -/
theorem digitValue_iff_lastBit {acc m : Nat} :
    (∃ d, digitValue c = some d ∧ 2 * acc + d = m) ↔ c = (if m % 2 = 1 then '1' else '0') ∧ acc = m / 2 := by
  have zero : digitValue '0' = some 0 := rfl
  have one : digitValue '1' = some 1 := rfl
  constructor
  · rintro ⟨d, hd, rfl⟩
    rw [digitValue] at hd
    split_ifs at hd with h0 h1
    · obtain rfl := Option.some.inj hd
      exact ⟨by rw [if_neg (by omega), h0], by omega⟩
    · obtain rfl := Option.some.inj hd
      exact ⟨by rw [if_pos (by omega), h1], by omega⟩
  · rintro ⟨rfl, rfl⟩
    split
    · exact ⟨1, one, by omega⟩
    · exact ⟨0, zero, by omega⟩

theorem digitsValue_cons (acc : Nat) :
    digitsValue acc (c :: rest) = (digitValue c).bind fun d => digitsValue (2 * acc + d) rest := by
  rw [digitsValue]
  cases digitValue c <;> rfl

/-- The digits that spell `n` on top of `acc` are the lowest bits of `n`, and `acc` is what stands above them. -/
theorem digitsValue_eq_some_iff {acc n : Nat} :
    digitsValue acc chunk = some n ↔ chunk = lowDigits n chunk.length ∧ acc = n / 2 ^ chunk.length := by
  induction chunk generalizing acc with
  | nil => simp [digitsValue, lowDigits]
  | cons c rest ih =>
    have first := digitValue_iff_lastBit (c := c) (acc := acc) (m := n / 2 ^ rest.length)
    rw [digitsValue_cons, Option.bind_eq_some_iff, List.length_cons, lowDigits, List.cons.injEq,
      Nat.testBit_eq_decide_div_mod_eq, Nat.pow_succ, ← Nat.div_div_eq_div_mul]
    simp only [ih, decide_eq_true_eq]
    constructor
    · rintro ⟨d, hd, hrest, hm⟩
      obtain ⟨hc, hacc⟩ := first.mp ⟨d, hd, hm⟩
      exact ⟨⟨hc, hrest⟩, hacc⟩
    · rintro ⟨⟨hc, hrest⟩, hacc⟩
      obtain ⟨d, hd, hm⟩ := first.mpr ⟨hc, hacc⟩
      exact ⟨d, hd, hrest, hm⟩

theorem digitsValue_eq_none_iff {acc : Nat} : digitsValue acc chunk = none ↔ ∃ c ∈ chunk, c ≠ '0' ∧ c ≠ '1' := by
  induction chunk generalizing acc with
  | nil => simp [digitsValue]
  | cons c rest ih =>
    simp only [digitsValue_cons, List.mem_cons, exists_eq_or_imp, ← digitValue_eq_none_iff] at ih ⊢
    cases digitValue c with
    | none => simp
    | some d => simp [ih]

/-! ### Chunks -/

/-- The chunks that are words are the words' digits. -/
theorem chunkWord_eq_some_iff : chunkWord chunk = some w ↔ chunk = wordDigits w := by
  rw [chunkWord, wordDigits_eq_lowDigits]
  split
  next sixteen =>
    simp only [Option.map_eq_some_iff, digitsValue_eq_some_iff, sixteen]
    constructor
    · rintro ⟨n, ⟨hchunk, hn⟩, rfl⟩
      rwa [BitVec.toNat_ofNat, Nat.mod_eq_of_lt (by omega)]
    · intro hchunk
      exact ⟨w.toNat, ⟨hchunk, by omega⟩, BitVec.ofNat_toNat ..⟩
  next hlen => exact iff_of_false nofun fun h => hlen (h ▸ length_lowDigits _ 16)

/-- The other chunks have another length or a character that is no digit. -/
theorem chunkWord_eq_none_iff :
    chunkWord chunk = none ↔ chunk.length ≠ 16 ∨ ∃ c ∈ chunk, c ≠ '0' ∧ c ≠ '1' := by
  rw [chunkWord]
  split
  next sixteen => rw [Option.map_eq_none_iff, digitsValue_eq_none_iff, or_iff_right (not_not_intro sixteen)]
  next hlen => exact iff_of_true rfl (.inl hlen)

theorem malformedChunk_iff : malformedChunk bits ↔ bits ≠ [] ∧ chunkWord (bits.take 16) = none := by
  have short : (bits.take 16).length ≠ 16 ↔ bits.length < 16 := by
    rw [List.length_take]
    omega
  rw [malformedChunk, chunkWord_eq_none_iff, short]

/-- The next chunk of a text that goes on with a word is that word. -/
theorem chunkWord_take_wordDigits (w : Word) (rest : List Char) :
    chunkWord ((wordDigits w ++ rest).take 16) = some w :=
  chunkWord_eq_some_iff.mpr (List.take_left' (length_wordDigits w))

/-- Every text is a sequence of good words and then nothing or a malformed chunk. -/
theorem exists_goodWords (bits : List Char) :
    ∃ (ws : List Word) (rest : List Char),
      bits = ws.flatMap wordDigits ++ rest ∧ (rest = [] ∨ malformedChunk rest) := by
  by_cases hb : bits = []
  · exact ⟨[], [], hb, .inl rfl⟩
  · cases hc : chunkWord (bits.take 16) with
    | none => exact ⟨[], bits, rfl, .inr (malformedChunk_iff.mpr ⟨hb, hc⟩)⟩
    | some w =>
      obtain ⟨ws, rest, hrest, hend⟩ := exists_goodWords (bits.drop 16)
      refine ⟨w :: ws, rest, ?_, hend⟩
      rw [List.flatMap_cons, List.append_assoc, ← hrest, ← chunkWord_eq_some_iff.mp hc, List.take_append_drop]
termination_by bits.length
decreasing_by
  have nonempty := List.length_pos_iff.mpr hb
  rw [List.length_drop]
  omega

theorem length_flatMap_wordDigits (ws : List Word) : (ws.flatMap wordDigits).length = 16 * ws.length := by
  simp [List.length_flatMap, length_wordDigits, Nat.mul_comm]

theorem digit_of_mem_flatMap_wordDigits (h : c ∈ ws.flatMap wordDigits) : c = '0' ∨ c = '1' := by
  obtain ⟨w, _, hw⟩ := List.mem_flatMap.mp h
  obtain ⟨j, _, rfl⟩ := List.mem_map.mp hw
  split
  · exact .inr rfl
  · exact .inl rfl

/-- A text with a wrong length or a wrong character has a malformed chunk after its good words. -/
theorem exists_malformedChunk (h : bits.length % 16 ≠ 0 ∨ ∃ c ∈ bits, c ≠ '0' ∧ c ≠ '1') :
    ∃ (ws : List Word) (bad : List Char), bits = ws.flatMap wordDigits ++ bad ∧ malformedChunk bad := by
  obtain ⟨ws, bad, rfl, rfl | hbad⟩ := exists_goodWords bits
  · rw [List.append_nil, length_flatMap_wordDigits] at h
    obtain hlen | ⟨c, hc, h0, h1⟩ := h
    · omega
    · obtain hdigit | hdigit := digit_of_mem_flatMap_wordDigits hc
      · exact absurd hdigit h0
      · exact absurd hdigit h1
  · exact ⟨ws, bad, rfl, hbad⟩

/-! ### The load -/

theorem State.loadsWords_nil (s : State) (a : Int) : s.LoadsWords s a [] :=
  ⟨nofun, fun _ _ => rfl, rfl, fun _ => rfl, rfl, rfl, rfl, rfl, rfl⟩

/-- A word is written and the others are loaded after it, at other addresses. -/
theorem State.loadsWords_cons {t : State} {m : Memory} (hw : s.memWrite a w = .ok m)
    (ht : (s.setMem m).LoadsWords t (a + Config.step) ws) : s.LoadsWords t a (w :: ws) := by
  obtain ⟨words, others, cells, frame⟩ := ht
  refine ⟨fun k hk => ?_, fun b hb => ?_, cells.trans (engineWrite_cellCount hw), frame⟩
  · cases k with
    | zero =>
      rw [wordAddress_zero, others a fun k _ => by rw [config_step]; omega]
      exact State.memRead_of_memWrite hw
    | succ k =>
      rw [wordAddress_succ]
      exact words k (Nat.lt_of_succ_lt_succ hk)
  · have first : b ≠ a := wordAddress_zero a ▸ hb 0 (Nat.zero_lt_succ _)
    rw [others b fun k hk => wordAddress_succ a k ▸ hb (k + 1) (Nat.succ_lt_succ hk)]
    exact State.memRead_of_memWrite_of_ne hw first

/-- The loop loads the good words whose addresses are valid, one unit of fuel each, and goes on after them. -/
theorem State.writeChunks_goodWords {fuel : Nat}
    (valid : ∀ k : Nat, k < ws.length → s.validAddr (a + (k : Int) * Config.step)) :
    ∃ m, s.LoadsWords (s.setMem m) a ws ∧
      State.writeChunks (fuel + ws.length) s a (ws.flatMap wordDigits ++ rest) =
        State.writeChunks fuel (s.setMem m) (a + (ws.length : Int) * Config.step) rest := by
  induction ws generalizing s a with
  | nil =>
    refine ⟨s.mem, s.loadsWords_nil a, ?_⟩
    rw [List.length_nil, wordAddress_zero]
    rfl
  | cons w ws ih =>
    have here := valid 0 (Nat.zero_lt_succ _)
    rw [wordAddress_zero] at here
    obtain ⟨_, m, hw⟩ := engine_ok_of_accepts (hI := Config.instructionWidth_valid) (v := w) here
    obtain ⟨m', loads, loop⟩ := ih (s := s.setMem m) (a := a + Config.step) fun k hk =>
      (engineWrite_accepts hw).mpr (wordAddress_succ a k ▸ valid (k + 1) (Nat.succ_lt_succ hk))
    refine ⟨m', State.loadsWords_cons hw loads, ?_⟩
    rw [List.flatMap_cons, List.append_assoc, List.length_cons, wordAddress_succ, ← Nat.add_assoc,
      State.writeChunks_word (wordDigits_append_ne_nil _ _) (chunkWord_take_wordDigits w _) hw,
      List.drop_left' (length_wordDigits w)]
    exact loop

/-- A load does not move the bounds of memory. -/
theorem State.LoadsWords.validAddr_iff {t : State} (h : s.LoadsWords t a ws) (b : Int) :
    t.validAddr b ↔ s.validAddr b := by
  obtain ⟨_, _, cells, _⟩ := h
  rw [State.validAddr_iff, State.validAddr_iff, cells]

/-- Good words that fit are written before a malformed chunk ends the load. -/
theorem State.writeChunks_malformedChunk {fuel : Nat} (bad : malformedChunk rest)
    (valid : ∀ k : Nat, k < ws.length → s.validAddr (a + (k : Int) * Config.step)) (hf : ws.length < fuel) :
    ∃ t, s.LoadsWords t a ws ∧
      State.writeChunks fuel s a (ws.flatMap wordDigits ++ rest) = t.raise .malformedProgram := by
  obtain ⟨n, rfl⟩ : ∃ n, fuel = n + 1 + ws.length := ⟨fuel - 1 - ws.length, by omega⟩
  obtain ⟨m, loads, loop⟩ := State.writeChunks_goodWords (fuel := n + 1) (rest := rest) valid
  obtain ⟨nonempty, noWord⟩ := malformedChunk_iff.mp bad
  exact ⟨_, loads, loop.trans (State.writeChunks_malformed nonempty noWord)⟩

/-- The good words before the first that does not fit are written, and that word ends the load. -/
theorem State.writeChunks_firstInvalidWord {fuel j : Nat} (hj : j < ws.length) (first : s.firstInvalidWord a j)
    (hf : ws.length ≤ fuel) :
    ∃ t, s.LoadsWords t a (ws.take j) ∧
      State.writeChunks fuel s a (ws.flatMap wordDigits ++ rest) =
        t.raise (.addressOutOfRange (bitAddr (a + (j : Int) * Config.step))) := by
  obtain ⟨valid, invalid⟩ := first
  obtain ⟨n, rfl⟩ : ∃ n, fuel = n + 1 + j := ⟨fuel - 1 - j, by omega⟩
  have taken : (ws.take j).length = j := List.length_take_of_le hj.le
  have text : ws.flatMap wordDigits ++ rest =
      (ws.take j).flatMap wordDigits ++
        (wordDigits ws[j] ++ ((ws.drop (j + 1)).flatMap wordDigits ++ rest)) := by
    rw [← List.append_assoc (wordDigits _), ← List.flatMap_cons, ← List.drop_eq_getElem_cons hj,
      ← List.append_assoc, ← List.flatMap_append, List.take_append_drop]
  obtain ⟨m, loads, loop⟩ := State.writeChunks_goodWords (s := s) (a := a) (ws := ws.take j) (fuel := n + 1)
    (rest := wordDigits ws[j] ++ ((ws.drop (j + 1)).flatMap wordDigits ++ rest)) (by rwa [taken])
  rw [taken] at loop
  refine ⟨_, loads, text ▸ loop.trans ?_⟩
  exact State.writeChunks_outside (wordDigits_append_ne_nil _ _) (chunkWord_take_wordDigits ..)
    (mt (State.LoadsWords.validAddr_iff loads _).mp invalid)

/-- A call of `writeProgram` that is not refused is the loop, with fuel for every chunk. -/
theorem State.writeProgram_of_idle (hs : s.fault = none) (hr : s.running = false) :
    s.writeProgram a bits = .next (State.writeChunks bits.length s a bits) := by
  simp [State.writeProgram, hs, hr]

end Sys2Proof.Machine
end

section
/-! The statements about failures (60_exceptions.md). -/

namespace Sys2Proof.Machine

/-- Settles O27: a step fails in its fetch or in its instruction, and TRAP is decoded from no service's code. -/
theorem onlyThreeFailuresAriseInARun : Obligations.OnlyThreeFailuresAriseInARun := by
  intro s t k h hk
  obtain ⟨⟨_, hs⟩, ⟨k', hfetch, rfl⟩ | ⟨ir, _, e⟩⟩ := step_next_cases h
  · obtain rfl := Option.some.inj hk
    obtain ⟨a, invalid, rfl⟩ := State.memRead_error hfetch
    exact .inl ⟨_, rfl, State.bitAddr_of_not_validAddr invalid⟩
  · obtain kept | ⟨_, a, invalid, rfl⟩ | ⟨v, hi, rfl⟩ | ⟨_, _, _, rfl⟩ := e.fault_cases
    · rw [kept, State.advancePc_fault, hs] at hk
      cases hk
    · obtain rfl := Option.some.inj hk
      exact .inl ⟨_, rfl, State.bitAddr_of_not_validAddr invalid⟩
    · obtain rfl := Option.some.inj hk
      obtain ⟨wellFormed, _⟩ := everyWordDecodesAndReencodes ir
      rw [hi, Instr.wellFormed, Bool.not_eq_true'] at wellFormed
      exact .inr (.inl ⟨v, rfl, wellFormed⟩)
    · exact .inr (.inr (Option.some.inj hk).symm)

/-- Settles O28: an effect raises its failure in the state it found, but for IN's prompt and line. -/
theorem failedInstructionHasNoOtherEffect : Obligations.FailedInstructionHasNoOtherEffect := by
  intro i s t k hs h hk
  obtain kept | ⟨hi, a, _, rfl⟩ | ⟨v, rfl, rfl⟩ | ⟨rfl, rest, hcin, rfl⟩ := (exec_effect h).fault_cases
  · rw [kept, hs] at hk
    cases hk
  · obtain rfl := Option.some.inj hk
    exact .inl ⟨fun hin => (by subst hin; cases hi), rfl⟩
  · obtain rfl := Option.some.inj hk
    exact .inl ⟨nofun, rfl⟩
  · obtain rfl := Option.some.inj hk
    refine .inr ⟨rfl, rfl, ?_⟩
    rw [hcin]
    rfl

/-- Settles O58: the load loop runs over the good words, and ends at the first that does not fit or at the malformed
chunk. -/
theorem malformedProgramTextFails : Obligations.MalformedProgramTextFails := by
  intro s origin bits hs hr malformed
  obtain ⟨ws, bad, rfl, hbad⟩ := exists_malformedChunk malformed
  have fuel : ws.length < (ws.flatMap wordDigits ++ bad).length := by
    obtain ⟨nonempty, _⟩ := hbad
    have positive := List.length_pos_iff.mpr nonempty
    rw [List.length_append, length_flatMap_wordDigits]
    omega
  refine ⟨ws, bad, _, rfl, hbad, State.writeProgram_of_idle hs hr, fun valid => ?_, fun j hj first => ?_⟩
  · obtain ⟨t, loads, loop⟩ := State.writeChunks_malformedChunk hbad valid fuel
    rw [loop]
    exact ⟨rfl, loads⟩
  · obtain ⟨t, loads, loop⟩ := State.writeChunks_firstInvalidWord (rest := bad) hj first fuel.le
    rw [loop]
    exact ⟨rfl, loads⟩

end Sys2Proof.Machine
end

section
/-! How a run goes on and where it ends (70_reset_and_hazards.md R283, R284, R291): a step by its fetch, an instruction
that completes or waits, and the states reached by steps as one chain. -/

namespace Sys2Proof.Machine

variable {s t u : State}

/-! ### A step by its fetch -/

theorem step_of_fetch {ir : Word} (hrun : s.inRun) (hir : s.fetch = .ok ir) :
    step s = exec (decode ir) s.advancePc := by
  obtain ⟨hr, hf⟩ := hrun
  simp only [step, hf, hr, if_true, hir]

theorem step_of_failedFetch {k : Failure} (hrun : s.inRun) (hk : s.fetch = .error k) : step s = .next (s.raise k) := by
  obtain ⟨hr, hf⟩ := hrun
  simp only [step, hf, hr, if_true, hk]

theorem State.fetch_map_decode_eq_ok_iff {i : Instr} :
    s.fetch.map decode = .ok i ↔ ∃ ir, s.fetch = .ok ir ∧ decode ir = i := by
  cases s.fetch <;> simp [Except.map]

/-! ### Completing or waiting -/

/-- An instruction completes, unless it reads a line and there is none (43_trap.md R220). -/
theorem exec_completes_or_waits (i : Instr) (s : State) :
    (∃ t, exec i s = .next t) ∨
      ((i = .getc ∨ i = .in_) ∧ s.cin = [] ∧ exec i s = .fault .stuckAwaitingLine) := by
  cases i with
  | getc =>
    cases hc : s.cin with
    | nil => exact .inr ⟨.inl rfl, rfl, exec_getc_of_none hc⟩
    | cons line rest => exact .inl ⟨_, exec_getc_of_line hc⟩
  | in_ =>
    match hc : s.cin with
    | [] => exact .inr ⟨.inr rfl, rfl, exec_in_of_none hc⟩
    | [] :: rest => exact .inl ⟨_, exec_in_of_emptyLine hc⟩
    | (c :: cs) :: rest => exact .inl ⟨_, exec_in_of_line hc⟩
  | sti sr off =>
    by_cases h : s.validAddr (s.pcRelative off)
    · obtain ⟨p, hp⟩ := State.memRead_of_validAddr h
      exact .inl ⟨_, exec_sti_of_pointer sr off hp⟩
    · exact .inl ⟨_, exec_sti_of_not_validAddr sr off h⟩
  | puts =>
    cases hs : s.stringAt (uval (s.reg 0)) with
    | ok ws => exact .inl ⟨_, exec_puts_of_string hs⟩
    | error k => exact .inl ⟨_, exec_puts_of_failure hs⟩
  | putsp =>
    cases hs : s.stringAt (uval (s.reg 0)) with
    | ok ws => exact .inl ⟨_, exec_putsp_of_string hs⟩
    | error k => exact .inl ⟨_, exec_putsp_of_failure hs⟩
  | add | addi | and | andi | not | ld | ldi | ldr | lea | st | str => exact .inl ⟨_, rfl⟩
  | br | jmp | jsr | jsrr | rti | res | out | halt | trap => exact .inl ⟨_, rfl⟩

theorem exec_ne_refused (i : Instr) (s : State) (r : Refusal) : exec i s ≠ .refused r := by
  obtain ⟨t, ht⟩ | ⟨_, _, hwait⟩ := exec_completes_or_waits i s
  · exact ht ▸ nofun
  · exact hwait ▸ nofun

/-! ### The chain of states from one state -/

/-- `t` is what a step from `s` answers. -/
def StepsTo (s t : State) : Prop := step s = .next t

theorem stepsTo_rightUnique : Relator.RightUnique StepsTo :=
  fun _ _ _ ht hu => Host.Outcome.next.inj (ht.symm.trans hu)

/-- `Reaches` is the library's closure of `StepsTo`. -/
theorem Reaches.reflTransGen (h : Reaches s t) : Relation.ReflTransGen StepsTo s t := by
  induction h with
  | refl => exact .refl
  | step _ hs ih => exact ih.tail hs

/-- A step is taken in a run only, so none follows a normal end or a failure. -/
theorem not_stepsTo_of_terminal (h : s.ended ∨ s.failed) : ¬StepsTo s t := fun hs => by
  obtain ⟨⟨hrunning, hfault⟩, _⟩ := step_next_cases hs
  obtain ⟨hr, _⟩ | hf := h
  · exact Bool.false_ne_true (hr.symm.trans hrunning)
  · exact hf hfault

theorem eq_of_reflTransGen_of_terminal (hs : s.ended ∨ s.failed) (h : Relation.ReflTransGen StepsTo s t) : s = t := by
  obtain same | ⟨_, first, _⟩ := h.cases_head
  · exact same
  · exact absurd first (not_stepsTo_of_terminal hs)

end Sys2Proof.Machine
end

section
/-! The host's calls that load and start (70_reset_and_hazards.md R282, R285, R287): a load of well-formed text, and the
calls that are refused (93 U7). -/

namespace Sys2Proof.Machine

variable {s : State} {a : Int} {ws : List Word} {bits : List Char}

/-- A text of words has fuel for every word. -/
theorem length_le_length_flatMap_wordDigits (ws : List Word) : ws.length ≤ (ws.flatMap wordDigits).length := by
  rw [length_flatMap_wordDigits]
  omega

/-- The load of words that all fit ends with the text, and latches nothing. -/
theorem State.writeChunks_allWords {fuel : Nat}
    (valid : ∀ k : Nat, k < ws.length → s.validAddr (a + (k : Int) * Config.step)) (hf : ws.length ≤ fuel) :
    ∃ m, s.LoadsWords (s.setMem m) a ws ∧ State.writeChunks fuel s a (ws.flatMap wordDigits) = s.setMem m := by
  obtain ⟨n, rfl⟩ := Nat.exists_eq_add_of_le' hf
  obtain ⟨m, loads, loop⟩ := State.writeChunks_goodWords (fuel := n) (rest := []) valid
  rw [List.append_nil, State.writeChunks_nil] at loop
  exact ⟨m, loads, loop⟩

theorem State.writeProgram_of_failed (hs : s.failed) : s.writeProgram a bits = .refused .hostCallAfterFailure :=
  if_pos hs

theorem State.writeProgram_of_inRun (hs : s.inRun) : s.writeProgram a bits = .refused .hostCallWhileRunning := by
  obtain ⟨hr, hf⟩ := hs
  simp [State.writeProgram, hf, hr]

theorem State.run_of_failed (hs : s.failed) : s.run = .refused .hostCallAfterFailure :=
  if_pos hs

theorem State.run_of_inRun (hs : s.inRun) : s.run = .refused .hostCallWhileRunning := by
  obtain ⟨hr, hf⟩ := hs
  simp [State.run, hf, hr]

theorem State.run_of_ended (hs : s.ended) : s.run = .next s.startRun := by
  obtain ⟨hr, hf⟩ := hs
  simp [State.run, hf, hr]

end Sys2Proof.Machine
end

section
/-! The statements about the run and the host's calls (70_reset_and_hazards.md). -/

namespace Sys2Proof.Machine

/-- Settles O29: a fetch that fails completes the step, and after one that succeeds the instruction completes or
waits. -/
theorem everyStepOfARunCompletesOrAwaitsALine : Obligations.EveryStepOfARunCompletesOrAwaitsALine := by
  refine ⟨fun s hrun hgo => ?_, fun s hwait => ?_, fun s r => ?_⟩
  · cases hfetch : s.fetch with
    | error k => exact ⟨_, step_of_failedFetch hrun hfetch⟩
    | ok ir =>
      rw [step_of_fetch hrun hfetch]
      obtain completes | ⟨hi, hcin, _⟩ := exec_completes_or_waits (decode ir) s.advancePc
      · exact completes
      · refine absurd ⟨hrun, hcin, ?_⟩ hgo
        rw [hfetch]
        exact hi.imp (congrArg _) (congrArg _)
  · obtain ⟨hrun, hcin, hgetc | hin⟩ := hwait
    · obtain ⟨ir, hir, hi⟩ := State.fetch_map_decode_eq_ok_iff.mp hgetc
      rw [step_of_fetch hrun hir, hi]
      exact exec_getc_of_none hcin
    · obtain ⟨ir, hir, hi⟩ := State.fetch_map_decode_eq_ok_iff.mp hin
      rw [step_of_fetch hrun hir, hi]
      exact exec_in_of_none hcin
  · obtain ⟨_, _, hs⟩ | ⟨_, hs⟩ | ⟨_, _, _, hs⟩ | ⟨_, ir, _, hs⟩ := step_cases s <;> rw [hs]
    · nofun
    · nofun
    · nofun
    · exact exec_ne_refused _ _ r

/-- Settles O31: steps are a function, so one of the two states is reached from the other, and a terminal state is left
by no step. -/
theorem theEndOfARunIsUnique : Obligations.TheEndOfARunIsUnique := by
  intro s t u ht hu tEnd uEnd
  obtain after | before := ht.reflTransGen.total_of_right_unique stepsTo_rightUnique hu.reflTransGen
  · exact eq_of_reflTransGen_of_terminal tEnd after
  · exact (eq_of_reflTransGen_of_terminal uEnd before).symm

/-- Settles O57: the load loop runs over all the words, and a load changes memory alone. -/
theorem writeProgramStoresItsChunks : Obligations.WriteProgramStoresItsChunks := by
  intro s origin ws hs hr valid
  obtain ⟨m, loads, loop⟩ := State.writeChunks_allWords valid (length_le_length_flatMap_wordDigits ws)
  exact ⟨s.setMem m, loop ▸ State.writeProgram_of_idle hs hr, loads, hs⟩

/-- Settles O59: the load loop ends at the first word that does not fit. -/
theorem writeProgramFailsAtTheFirstInvalidAddress : Obligations.WriteProgramFailsAtTheFirstInvalidAddress := by
  intro s origin ws j hs hr hj first
  obtain ⟨t, loads, loop⟩ := State.writeChunks_firstInvalidWord (rest := []) hj first
    (length_le_length_flatMap_wordDigits ws)
  rw [List.append_nil] at loop
  refine ⟨_, State.writeProgram_of_idle hs hr, ?_⟩
  rw [loop]
  exact ⟨rfl, loads⟩

/-- Settles O19: the two branches of a step in a run. -/
theorem stepRunsTheDecodedInstruction : Obligations.StepRunsTheDecodedInstruction :=
  fun _ hr hf => ⟨fun _ => step_of_fetch ⟨hr, hf⟩, fun _ => step_of_failedFetch ⟨hr, hf⟩⟩

/-- Settles O56: the three branches of `run()`. -/
theorem runStartsAtTheStartAddress : Obligations.RunStartsAtTheStartAddress :=
  ⟨fun _ hf hr => State.run_of_ended ⟨hr, hf⟩, fun _ => State.run_of_failed,
    fun _ hf hr => State.run_of_inRun ⟨hr, hf⟩⟩

/-- Settles O60: the two refusals of `writeProgram`. -/
theorem writeProgramIsRefusedAfterAFailureOrDuringARun : Obligations.WriteProgramIsRefusedAfterAFailureOrDuringARun :=
  fun _ _ _ => ⟨State.writeProgram_of_failed, fun hf hr => State.writeProgram_of_inRun ⟨hr, hf⟩⟩

end Sys2Proof.Machine
end
